-- ==== Sys2Proof/Word.lean ====
section
/-! DEFINITION. The plain word types of the CTR frame cipher engine (spec/00_scope.md rule R7). -/

namespace Sys2Proof

/-- One byte of a byte string or of buffer memory (R7, R27). -/
abbrev Byte := BitVec 8

/-- A 32-bit register, command word, buffer address or length (R12, R27, R40). -/
abbrev Word := BitVec 32

/-- A 16-byte string `B[0] .. B[15]`, held as the number `BE128(B)` of R7: `B[0]` is the most
significant byte. The key, the counter seed and the blocks of the cipher have this type. -/
abbrev Bytes16 := BitVec 128

/-- A byte string (R7). -/
abbrev Bytes := List Byte

end Sys2Proof
end

