-- ==== Sys2Proof/Config.lean ====
section
/-! DEFINITION. What this hardware fixes (spec/00_scope.md rule R6), and the values the spec leaves
free, each an opaque constant that no proof can look into. -/

namespace Sys2Proof.Config

/-- `SUMMARY_PERIOD` (R6, R82): a summary is emitted every 300 video frames. -/
def summaryPeriod : Nat := 300

/-- `2^ADDR_W` (R6, R27): buffer memory has the addresses `0 .. 2^32 - 1`. -/
def addrSpace : Nat := 2 ^ 32

/-- The register window is 256 bytes (R12). -/
def windowBytes : Nat := 256

/-- What a byte of buffer memory that nothing has written reads as.
DESIGN CHOICE (log entry 3): the spec gives buffer memory no contents at reset. -/
def unlistedByte : Byte := 0

/-- The elapsed time, in whole microseconds, of the frame that takes draw number `d`
(R80, `draw elapsed`): any value in `0 .. 2^32 - 1`, constrained by no rule. -/
opaque elapsedMicros : Nat → Word

/-- The byte that buffer address `a` of an abandoned command's output range holds after a reset
that took draw number `d` (R101, U8 of spec/93_implementation_defined.md: any value). -/
opaque abandonedByte : Nat → Nat → Byte

end Sys2Proof.Config
end

