-- ==== Sys2Proof/Syntax.lean ====
section
/-! DEFINITION. The enumerations of spec/00_scope.md rule R9 and the twelve commands of
spec/30_encoding.md rule R42, one constructor per row of spec/opcode_table.json. -/

namespace Sys2Proof

/-- `MODE` (R9): the cipher mode. -/
inductive Mode where
  | legacyXor
  | ctr
deriving DecidableEq, Repr

/-- `POLICY` (R9): the selective-encryption policy. -/
inductive Policy where
  | always
  | keyframeOnly
deriving DecidableEq, Repr

/-- `MEDIA` (R9): the media type of a frame. -/
inductive Media where
  | audio
  | video
deriving DecidableEq, Repr

/-- `ROLE` (R6, R18): an instance is built as an Encryptor or as a Decryptor. -/
inductive Role where
  | enc
  | dec
deriving DecidableEq, Repr

/-- The code of a mode (R9): `LEGACY_XOR` 0, `CTR` 1. -/
def Mode.bit : Mode → Bool
  | .legacyXor => false
  | .ctr => true

/-- The code of a policy (R9): `ALWAYS` 0, `KEYFRAME_ONLY` 1. -/
def Policy.bit : Policy → Bool
  | .always => false
  | .keyframeOnly => true

/-- The code of a media type (R9): `AUDIO` 0, `VIDEO` 1. -/
def Media.bit : Media → Bool
  | .audio => false
  | .video => true

/-- The code of a role (R18): `ENC` 0, `DEC` 1. -/
def Role.bit : Role → Bool
  | .enc => false
  | .dec => true

def Mode.ofBit (b : Bool) : Mode := if b then .ctr else .legacyXor
def Policy.ofBit (b : Bool) : Policy := if b then .keyframeOnly else .always
def Media.ofBit (b : Bool) : Media := if b then .video else .audio

/-- A command (R2, R42). A constructor carries what its command word carries; the other operands
come from the command snapshot (R43). -/
inductive Instr where
  /-- `SET_KEY` (R48) -/
  | setKey
  /-- `SET_SEED` (R49) -/
  | setSeed
  /-- `SET_MODE m` (R50) -/
  | setMode (m : Mode)
  /-- `SET_POLICY p` (R51) -/
  | setPolicy (p : Policy)
  /-- `SET_FORCE_FAIL f` (R52) -/
  | setForceFail (f : Bool)
  /-- `SET_MARKER v` (R53) -/
  | setMarker (v : Byte)
  /-- `SET_XKEY v` (R54) -/
  | setXkey (v : Byte)
  /-- `ADV_SEED` (R55) -/
  | advSeed
  /-- `ENCRYPT md` (R72) -/
  | encrypt (md : Media)
  /-- `DECRYPT md` (R74) -/
  | decrypt (md : Media)
  /-- `ENC_MAXOUT md` (R77) -/
  | encMaxout (md : Media)
  /-- `DEC_MAXOUT md` (R78) -/
  | decMaxout (md : Media)
deriving DecidableEq, Repr

end Sys2Proof
end

