-- ==== Sys2Proof/WellFormed.lean ====
section
/-! DEFINITION. When a command is legal on an instance (spec/30_encoding.md rules R42 and R44).
The operand bounds (a flag, a mode and a policy are one bit, a marker eight) stand in the types of
`Instr`; what is left to check is the instance that runs the command: its `ROLE` and `TEST_HOOKS`. -/

namespace Sys2Proof

/-- The "roles" column of R42: which instances may run a command. -/
def Instr.legalOn (role : Role) (testHooks : Bool) : Instr → Bool
  | .setKey => true
  | .setSeed => true
  | .setMode _ => true
  | .setPolicy _ => true
  | .setForceFail _ => testHooks
  | .setMarker _ => true
  | .setXkey _ => true
  | .advSeed => true
  | .encrypt _ => role == .enc
  | .decrypt _ => role == .dec
  | .encMaxout _ => role == .enc
  | .decMaxout _ => role == .dec

/-- A frame command (R66): one that reads and writes buffer memory. -/
def Instr.isFrame : Instr → Bool
  | .encrypt _ => true
  | .decrypt _ => true
  | .setKey => false
  | .setSeed => false
  | .setMode _ => false
  | .setPolicy _ => false
  | .setForceFail _ => false
  | .setMarker _ => false
  | .setXkey _ => false
  | .advSeed => false
  | .encMaxout _ => false
  | .decMaxout _ => false

end Sys2Proof
end

