-- ==== Sys2Proof/Decode.lean ====
section
/-! DEFINITION. Decoding and encoding of command words (spec/30_encoding.md rules R40 to R45).
Decoding is total on every 32-bit word: a command, or a named reason why the word is illegal.
Whether the instance may run the command (R44, roles and `TEST_HOOKS`) is `Instr.legalOn`. -/

namespace Sys2Proof

/-- `OP`, bits 7:0 (R40, R41). -/
def cmdOp (w : Word) : Byte := w.extractLsb' 0 8

/-- `IMM8`, bits 15:8 (R40, R41). -/
def cmdImm (w : Word) : Byte := w.extractLsb' 8 8

/-- `MEDIA`, bit 16 (R40, R41). -/
def cmdMedia (w : Word) : Bool := w.getLsbD 16

/-- The reserved field, bits 31:17 (R40, R41). -/
def cmdRsv (w : Word) : BitVec 15 := w.extractLsb' 17 15

/-- Why a word selects no row of R42 (R44). -/
inductive DecodeError where
  /-- a bit of 31:17 is set -/
  | reservedBits
  /-- `OP` is none of the twelve opcodes -/
  | unknownOpcode
  /-- `IMM8` is nonzero where the row requires 0 -/
  | immNotZero
  /-- `IMM8` is neither 0 nor 1 where the row requires 0 or 1 -/
  | immNotFlag
  /-- `MEDIA` is 1 where the row requires 0 -/
  | mediaNotZero
deriving DecidableEq, Repr

/-- A row with no operand in the word: `IMM8 = 0`, `MEDIA = 0`. -/
def decodeBare (w : Word) (i : Instr) : Except DecodeError Instr :=
  if cmdImm w ≠ 0 then .error .immNotZero
  else if cmdMedia w then .error .mediaNotZero
  else .ok i

/-- A row whose `IMM8` is 0 or 1, `MEDIA = 0`. -/
def decodeFlag (w : Word) (f : Bool → Instr) : Except DecodeError Instr :=
  if cmdMedia w then .error .mediaNotZero
  else if cmdImm w = 0 then .ok (f false)
  else if cmdImm w = 1 then .ok (f true)
  else .error .immNotFlag

/-- A row whose `IMM8` is any byte, `MEDIA = 0`. -/
def decodeImm (w : Word) (f : Byte → Instr) : Except DecodeError Instr :=
  if cmdMedia w then .error .mediaNotZero
  else .ok (f (cmdImm w))

/-- A row whose `MEDIA` is either value, `IMM8 = 0`. -/
def decodeMedia (w : Word) (f : Media → Instr) : Except DecodeError Instr :=
  if cmdImm w ≠ 0 then .error .immNotZero
  else .ok (f (Media.ofBit (cmdMedia w)))

/-- The decoder (R42, R44): total on every word. -/
def decodeWord (w : Word) : Except DecodeError Instr :=
  if cmdRsv w ≠ 0 then .error .reservedBits
  else
    match (cmdOp w).toNat with
    | 0x01 => decodeBare w .setKey
    | 0x02 => decodeBare w .setSeed
    | 0x03 => decodeFlag w (fun b => .setMode (Mode.ofBit b))
    | 0x04 => decodeFlag w (fun b => .setPolicy (Policy.ofBit b))
    | 0x05 => decodeFlag w .setForceFail
    | 0x06 => decodeImm w .setMarker
    | 0x07 => decodeImm w .setXkey
    | 0x08 => decodeBare w .advSeed
    | 0x10 => decodeMedia w .encrypt
    | 0x11 => decodeMedia w .decrypt
    | 0x12 => decodeMedia w .encMaxout
    | 0x13 => decodeMedia w .decMaxout
    | _ => .error .unknownOpcode

/-- A command word from its fields (R40). -/
def cmdWord (op imm : Byte) (media : Bool) : Word :=
  0#15 ++ BitVec.ofBool media ++ imm ++ op

/-- `IMM8` of a one-bit operand. -/
def flagImm (b : Bool) : Byte := if b then 1 else 0

/-- The encoder: the word of a command, from the table of R42. -/
def encode : Instr → Word
  | .setKey => cmdWord 0x01 0 false
  | .setSeed => cmdWord 0x02 0 false
  | .setMode m => cmdWord 0x03 (flagImm m.bit) false
  | .setPolicy p => cmdWord 0x04 (flagImm p.bit) false
  | .setForceFail f => cmdWord 0x05 (flagImm f) false
  | .setMarker v => cmdWord 0x06 v false
  | .setXkey v => cmdWord 0x07 v false
  | .advSeed => cmdWord 0x08 0 false
  | .encrypt md => cmdWord 0x10 0 md.bit
  | .decrypt md => cmdWord 0x11 0 md.bit
  | .encMaxout md => cmdWord 0x12 0 md.bit
  | .decMaxout md => cmdWord 0x13 0 md.bit

/-- The command that the accepted word `w` is on an instance, or none where the word is illegal
there (R44). -/
def legalCommand (role : Role) (testHooks : Bool) (w : Word) : Option Instr :=
  match decodeWord w with
  | .error _ => none
  | .ok i => if i.legalOn role testHooks then some i else none

/-- The word of `nbits` bits that `w` gives, as the 32-bit command word: every bit above `nbits`
is 0. -/
def tableWord (nbits w : Nat) : Word := BitVec.ofNat 32 (w % 2 ^ nbits)

/-- The decoder on a word numbered as spec/opcode_table.json numbers it (a command is one 32-bit
word, R40): a word that does not fit 32 bits is no command word. -/
def decodeTableWord (nbits w : Nat) : Option Instr :=
  if w % 2 ^ nbits < 2 ^ 32 then (decodeWord (tableWord nbits w)).toOption else none

end Sys2Proof
end

