-- ==== Sys2Proof/Machine/State.lean ====
section
/-! DEFINITION. The state of one instance with its buffer memory (spec/10_state.md rules R10 to R26),
as plain data, and the state after reset (R26, R101). -/

namespace Sys2Proof.Machine

/-- `STATUS.CODE` (R16, R85). The codes 6..15 are never written, so they have no constructor. -/
inductive Code where
  | ok
  | forcedFailure
  | failedToDecrypt
  | illegalCmd
  | sizeError
  | notProvisioned
deriving DecidableEq, Repr

/-- `STATUS.CAUSE` (R16): 0 none, 1 forced failure, 2 trailer mismatch. -/
inductive Cause where
  | none
  | forced
  | trailer
deriving DecidableEq, Repr

/-- `STATUS.FATAL_CAUSE` (R16, R87): 0 none, then the four contract violations. -/
inductive FatalCause where
  | none
  | encSize
  | decSize
  | range
  | overlap
deriving DecidableEq, Repr

/-- The constants of an instance (R6): they never change. -/
structure Params where
  /-- `ROLE`, 1 bit (R18) -/
  role : Role
  /-- `TEST_HOOKS`, 1 bit (R18) -/
  testHooks : Bool
  /-- `REG_BASE`, the host address of the register window (R6, R12) -/
  regBase : Nat
deriving DecidableEq, Repr

/-- The configuration fields of R11. -/
structure Settings where
  /-- `KEY`, 128 bits; `K[0]` is the most significant byte -/
  key : Bytes16
  /-- `SEED`, 128 bits: the counter `BE128(SEED)` -/
  seed : Bytes16
  /-- `XKEY`, 8 bits -/
  xkey : Byte
  /-- `MARKER`, 8 bits -/
  marker : Byte
  mode : Mode
  policy : Policy
  /-- `FORCE_FAIL` -/
  forceFail : Bool
  keyV : Bool
  seedV : Bool
  markerV : Bool
  xkeyV : Bool
deriving DecidableEq, Repr

/-- The stats accumulator (R79). -/
structure Stats where
  totalUs : BitVec 64
  frames : BitVec 32
  kframes : BitVec 32
  kfUs : BitVec 64
  maxUs : BitVec 32
deriving DecidableEq, Repr

/-- The summary snapshot (R25). -/
structure Summary where
  mode : Mode
  policy : Policy
  frames : BitVec 32
  kframes : BitVec 32
  totalUs : BitVec 64
  kfUs : BitVec 64
  maxUs : BitVec 32
  /-- `SUM_COUNT` -/
  count : BitVec 32
deriving DecidableEq, Repr

/-- The fields of `STATUS` (R16). -/
structure Status where
  busy : Bool
  fatal : Bool
  code : Code
  cause : Cause
  fatalCause : FatalCause
deriving DecidableEq, Repr

/-- The staging registers (R20, R21). -/
structure Staging where
  data0 : Word
  data1 : Word
  data2 : Word
  data3 : Word
  inAddr : Word
  inLen : Word
  outAddr : Word
  outLen : Word
deriving DecidableEq, Repr

/-- The command snapshot (R14): `LCMD` and the latched copies of the staging registers
(`LDATA0`..`LDATA3`, `LIN_ADDR`, `LIN_LEN`, `LOUT_ADDR`, `LOUT_LEN`). -/
structure Snapshot where
  cmd : Word
  ops : Staging
deriving DecidableEq, Repr

/-- What can happen next, as the world outside orders it (R10, R101): an action of the host, the
reset input, or a turn of the engine. -/
inductive Input where
  /-- the engine is given a turn: it executes the accepted command, if there is one (R14) -/
  | engine
  /-- a host write of `value` to `bytes` bytes at host address `addr` (R12, R13) -/
  | regWrite (addr bytes : Nat) (value : Word)
  /-- a host read of `bytes` bytes at host address `addr` (R12, R13) -/
  | regRead (addr bytes : Nat)
  /-- the host writes byte `value` of buffer memory, by its own means (R10, R27) -/
  | bufWrite (addr : Word) (value : Byte)
  /-- the host reads a byte of buffer memory, by its own means (R10, R27) -/
  | bufRead (addr : Word)
  /-- the reset input is asserted (R101) -/
  | reset
deriving DecidableEq, Repr

/-- Buffer memory (R27): the listed bytes, addresses strictly rising, no byte listed that equals what
an unlisted address reads as. -/
abbrev Memory := List Host.Cell

/-- The canonical form of a memory. -/
abbrev Memory.wf (m : Memory) : Prop :=
  m.Pairwise (fun c d => c.1 < d.1) ∧
    ∀ c ∈ m, c.1 < Config.addrSpace ∧ c.2 ≠ Config.unlistedByte

/-- The whole state: the instance's own (R11), its buffer memory (R10), and three fields of the
model's own, `inputs`, `draws` and `lastRead`. -/
structure State where
  params : Params
  cfg : Settings
  stats : Stats
  sum : Summary
  status : Status
  /-- `RESULT`, 32 bits (R17) -/
  result : Word
  /-- `IRQ_EN`, 4 bits (R19) -/
  irqEn : BitVec 4
  /-- `IRQ_PEND`, 4 bits (R19) -/
  irqPend : BitVec 4
  staging : Staging
  snap : Snapshot
  mem : Memory
  /-- MODEL'S OWN (log entry 2): what is still to happen, oldest first -/
  inputs : List Input
  /-- MODEL'S OWN (log entry 5): how many free values have been drawn -/
  draws : Nat
  /-- MODEL'S OWN (log entry 6): the value the last host read returned -/
  lastRead : Word
deriving DecidableEq, Repr

/-- Why the machine stops with a fault. -/
inductive Fault where
  /-- R39, U1: raised by a host access to buffer memory (Machine/Inputs.lean) that writes a byte of the
  input range, or reads or writes a byte of the output range, of the frame command in flight. SAFE:
  nothing is proved of a run that contains it. -/
  | hostBufferRace
deriving DecidableEq, Repr

/-- Why the model has no step. -/
inductive Refusal where
  /-- Raised by an arm of exec that has no meaning yet. SAFE. No arm is in this state. -/
  | notModelled (mnemonic : String)
  /-- R13, U2: raised by a host access that touches the register window and is not an aligned 32-bit
  access (Machine/Inputs.lean). SAFE: the spec says the host agent has no step for it. -/
  | unsupportedRegisterAccess
  /-- R12: raised by a host access that touches no byte of the window at `REG_BASE`
  (Machine/Inputs.lean): it is no access to this instance. SAFE. -/
  | outsideRegisterWindow
deriving DecidableEq, Repr

/-- The configuration after reset (R18, R26, R101). -/
def Settings.reset : Settings :=
  { key := 0, seed := 0, xkey := 0, marker := 0, mode := .ctr, policy := .always, forceFail := false,
    keyV := false, seedV := false, markerV := false, xkeyV := false }

/-- The accumulator after reset (R24, R26), and after a summary (R82). -/
def Stats.zero : Stats := { totalUs := 0, frames := 0, kframes := 0, kfUs := 0, maxUs := 0 }

/-- The summary registers after reset (R25, R26). -/
def Summary.reset : Summary :=
  { mode := .legacyXor, policy := .always, frames := 0, kframes := 0, totalUs := 0, kfUs := 0,
    maxUs := 0, count := 0 }

/-- `STATUS` after reset (R16): every field 0. -/
def Status.reset : Status :=
  { busy := false, fatal := false, code := .ok, cause := .none, fatalCause := .none }

/-- The staging registers after reset (R20, R21). -/
def Staging.zero : Staging :=
  { data0 := 0, data1 := 0, data2 := 0, data3 := 0, inAddr := 0, inLen := 0, outAddr := 0, outLen := 0 }

/-- The command snapshot after reset (R26). -/
def Snapshot.zero : Snapshot := { cmd := 0, ops := Staging.zero }

/-- An instance of the given constants right after reset (R26, R101), beside the given buffer memory
and the model's own fields. -/
def State.resetOf (p : Params) (mem : Memory) (inputs : List Input) (draws : Nat) (lastRead : Word) :
    State :=
  { params := p, cfg := Settings.reset, stats := Stats.zero, sum := Summary.reset,
    status := Status.reset, result := 0, irqEn := 0, irqPend := 0, staging := Staging.zero,
    snap := Snapshot.zero, mem := mem, inputs := inputs, draws := draws, lastRead := lastRead }

/-- The machine right after reset (R26, R101).
`TEST_HOOKS = 1` is the spec's (R6). `ROLE` and `REG_BASE` are OPEN in the spec: an Encryptor whose
window stands at host address 0 is a DESIGN CHOICE (log entry 1); memory with nothing listed is log
entry 3; no input waiting, no draw taken and nothing read yet are log entries 2, 5 and 6. -/
def State.reset : State :=
  State.resetOf { role := .enc, testHooks := true, regBase := 0 } [] [] 0 0

end Sys2Proof.Machine
end

