-- ==== Sys2Proof/Machine/Bytes.lean ====
section
/-! DEFINITION. Byte order: how the bytes of a string are packed in registers (spec/10_state.md rules
R20 and R22, spec/20_memory.md rule R29) and in the 128-bit numbers of spec/00_scope.md rule R7. -/

namespace Sys2Proof.Machine

/-- Byte `b` of a 32-bit register: its bits `8b+7 : 8b` (R20, R29). -/
def wordByte (w : Word) (b : Nat) : Byte := w.extractLsb' (8 * b) 8

/-- `bytes(x)` of R43: the four bytes of a register, byte 0 first. -/
def wordBytes (w : Word) : Bytes := [wordByte w 0, wordByte w 1, wordByte w 2, wordByte w 3]

/-- A register from its four bytes, byte 0 in bits 7:0 (R20, R22). -/
def packWord (b0 b1 b2 b3 : Byte) : Word := b3 ++ b2 ++ b1 ++ b0

/-- `B[i]` of a 16-byte string (R7): `B[0]` is the most significant byte of `BE128(B)`. -/
def blockByte (B : Bytes16) (i : Nat) : Byte := B.extractLsb' (8 * (15 - i)) 8

/-- A 16-byte string as the list `B[0] .. B[15]`. -/
def blockBytes (B : Bytes16) : Bytes := (List.range 16).map (blockByte B)

/-- `BE128` of a byte string (R7): the first byte is the most significant. -/
def ofBytes (l : Bytes) : Bytes16 := l.foldl (fun acc b => (acc <<< 8) ||| b.setWidth 128) 0

/-- Byte-by-byte XOR of two byte strings (R7). -/
def xorBytes (a b : Bytes) : Bytes := List.zipWith (· ^^^ ·) a b

end Sys2Proof.Machine
end

