-- ==== Sys2Proof/Machine/Ops.lean ====
section
/-! DEFINITION. The shared operations: buffer memory (spec/20_memory.md rule R28), the end of a command
(`complete`, R86), entry to the fatal state (`raiseFatal`, R87), the acceptance or the dropping of a
command word (R14), and reset (R101). The hardware has no trap and no return from one (R93): the
fatal state is its exception, and reset the one way out. -/

namespace Sys2Proof.Machine

/-- What a step or a meaning answers. -/
abbrev Result := Host.Outcome State Fault Refusal

/-- `M[a]` (R28). -/
def Memory.read : Memory → Nat → Byte
  | [], _ => Config.unlistedByte
  | (x, c) :: m, a => if x = a then c else Memory.read m a

/-- Take address `a` off the list. -/
def Memory.erase (m : Memory) (a : Nat) : Memory := m.filter (fun c => c.1 != a)

/-- Put a cell before the first larger address. -/
def Memory.insert : Memory → Nat → Byte → Memory
  | [], a, b => [(a, b)]
  | (x, c) :: m, a, b => if a < x then (a, b) :: (x, c) :: m else (x, c) :: Memory.insert m a b

/-- `M[a] <- b` (R28), in canonical form. -/
def Memory.write (m : Memory) (a : Nat) (b : Byte) : Memory :=
  if b = Config.unlistedByte then m.erase a else (m.erase a).insert a b

/-- `MemRead(a, n)` (R28): the bytes `M[a] .. M[a+n-1]`. -/
def memRead (m : Memory) (a : Nat) : Nat → Bytes
  | 0 => []
  | n + 1 => m.read a :: memRead m (a + 1) n

/-- `MemWrite(a, n, B)` (R28): `M[a+i] <- B[i]` for every `i < n`, `n` the length of `B`. -/
def memWrite (m : Memory) (a : Nat) : Bytes → Memory
  | [] => m
  | b :: bs => memWrite (m.write a b) (a + 1) bs

/-- The pending bits of `IRQ_PEND` (R19). -/
def irqDone : BitVec 4 := 0b0001
def irqSummary : BitVec 4 := 0b0010
def irqFatal : BitVec 4 := 0b0100
def irqOvr : BitVec 4 := 0b1000

/-- A source event sets its pending bit, whatever `IRQ_EN` holds (R90, R91). -/
def setPending (bit : BitVec 4) (s : State) : State := { s with irqPend := s.irqPend ||| bit }

/-- `complete(code, cause, result)` (R86): the last action of every command that does not enter the
fatal state. -/
def complete (code : Code) (cause : Cause) (result : Word) (s : State) : State :=
  setPending irqDone
    { s with status := { s.status with busy := false, code := code, cause := cause }, result := result }

/-- The outcome of an illegal word (R44): nothing else changes. -/
def completeIllegal (s : State) : State := complete .illegalCmd .none 0 s

/-- `raise Fatal(cause)` (R87): `CODE`, `CAUSE` and `RESULT` keep their values and `DONE` is not set. -/
def raiseFatal (cause : FatalCause) (s : State) : State :=
  setPending irqFatal
    { s with status := { s.status with busy := false, fatal := true, fatalCause := cause } }

/-- A `CMD` write that is accepted (R14 a): the word and every staging register are latched, and
`BUSY` is set. -/
def acceptCommand (w : Word) (s : State) : State :=
  { s with snap := { cmd := w, ops := s.staging }, status := { s.status with busy := true } }

/-- A `CMD` write that is dropped (R14 b, R88, R89). -/
def dropCommand (s : State) : State := setPending irqOvr s

/-- A host write of `w` to `CMD` (R14; R92: the fatal state and `BUSY` drop the word). -/
def writeCmd (w : Word) (s : State) : State :=
  if s.status.busy || s.status.fatal then dropCommand s else acceptCommand w s

/-- The first free value: `draw elapsed` (R80), the value of the next draw. -/
def drawElapsed (s : State) : Word := Config.elapsedMicros s.draws

end Sys2Proof.Machine
end

