-- ==== Sys2Proof/Machine/Operands.lean ====
section
/-! DEFINITION. The operands of commands (spec/30_encoding.md rule R43), all read from the snapshot, and
the contracts on the buffers of a frame command (spec/42_frame_commands.md rules R69 and R70). -/

namespace Sys2Proof.Machine

/-- `D` of `SET_KEY` and `SET_SEED` (R20, R43): the bytes of `LDATA0`, then `LDATA1`, `LDATA2`,
`LDATA3`. -/
def operandD (o : Staging) : Bytes16 :=
  ofBytes (wordBytes o.data0 ++ wordBytes o.data1 ++ wordBytes o.data2 ++ wordBytes o.data3)

/-- `count` of `ADV_SEED` (R43): `LDATA0`, unsigned. -/
def operandCount (o : Staging) : Nat := o.data0.toNat

/-- Address `a` lies in the range of `n` bytes from `base`. -/
def inRange (base n a : Nat) : Bool := decide (base ≤ a) && decide (a < base + n)

/-- `Overlap(a, la, b, lb)` (R69). -/
def overlap (a la b lb : Nat) : Bool :=
  decide (la > 0) && decide (lb > 0) && decide (a < b + lb) && decide (b < a + la)

/-- Checks (b) and (c) of R69 and R70: the ranges, then the overlap. -/
def bufferFault (o : Staging) : Option FatalCause :=
  if o.inAddr.toNat + o.inLen.toNat > Config.addrSpace ∨
      o.outAddr.toNat + o.outLen.toNat > Config.addrSpace then some .range
  else if overlap o.inAddr.toNat o.inLen.toNat o.outAddr.toNat o.outLen.toNat then some .overlap
  else none

/-- `EncContract()` (R69): the fatal cause, if the contract of `ENCRYPT` is violated. -/
def encContract (o : Staging) : Option FatalCause :=
  if o.outLen.toNat ≠ o.inLen.toNat + 1 then some .encSize else bufferFault o

/-- `DecContract()` (R70): the fatal cause, if the contract of `DECRYPT` is violated. -/
def decContract (o : Staging) : Option FatalCause :=
  if o.outLen.toNat + 1 ≠ o.inLen.toNat then some .decSize else bufferFault o

/-- `Prov(MODE)` (R71). -/
def provisioned (c : Settings) : Bool :=
  c.markerV &&
    match c.mode with
    | .ctr => c.keyV && c.seedV
    | .legacyXor => c.xkeyV

end Sys2Proof.Machine
end

