-- ==== Sys2Proof/Machine/Flags.lean ====
section
/-! DEFINITION. The fields of the status, configuration and interrupt registers as bits
(spec/10_state.md rules R16, R18, R19, R25) and the interrupt output (spec/60_exceptions.md rule R90). -/

namespace Sys2Proof.Machine

/-- The number of a status code (R16, R85). -/
def Code.bits : Code → BitVec 4
  | .ok => 0
  | .forcedFailure => 1
  | .failedToDecrypt => 2
  | .illegalCmd => 3
  | .sizeError => 4
  | .notProvisioned => 5

/-- The number of a cause (R16). -/
def Cause.bits : Cause → BitVec 4
  | .none => 0
  | .forced => 1
  | .trailer => 2

/-- The number of a fatal cause (R16, R87). -/
def FatalCause.bits : FatalCause → BitVec 4
  | .none => 0
  | .encSize => 1
  | .decSize => 2
  | .range => 3
  | .overlap => 4

/-- `STATUS` as a word (R16): `FATAL_CAUSE` 15:12, `CAUSE` 11:8, `CODE` 7:4, reserved 3:2, `FATAL` 1,
`BUSY` 0. -/
def statusWord (st : Status) : Word :=
  0#16 ++ st.fatalCause.bits ++ st.cause.bits ++ st.code.bits ++ 0#2 ++
    BitVec.ofBool st.fatal ++ BitVec.ofBool st.busy

/-- `CFG` as a word (R18): `XKEY_V` 19, `MARKER_V` 18, `SEED_V` 17, `KEY_V` 16, `MARKER` 15:8,
reserved 7:5, `TEST_HOOKS` 4, `ROLE` 3, `FORCE_FAIL` 2, `POLICY` 1, `MODE` 0. -/
def cfgWord (p : Params) (c : Settings) : Word :=
  0#12 ++ BitVec.ofBool c.xkeyV ++ BitVec.ofBool c.markerV ++ BitVec.ofBool c.seedV ++
    BitVec.ofBool c.keyV ++ c.marker ++ 0#3 ++ BitVec.ofBool p.testHooks ++
    BitVec.ofBool p.role.bit ++ BitVec.ofBool c.forceFail ++ BitVec.ofBool c.policy.bit ++
    BitVec.ofBool c.mode.bit

/-- `SUM_CFG` as a word (R25): `POLICY` 1, `MODE` 0 at the last summary. -/
def sumCfgWord (m : Summary) : Word :=
  0#30 ++ BitVec.ofBool m.policy.bit ++ BitVec.ofBool m.mode.bit

/-- `SEEDk` (R22): bytes `4k .. 4k+3` of the seed, packed as R20. -/
def seedWord (seed : Bytes16) (k : Nat) : Word :=
  packWord (blockByte seed (4 * k)) (blockByte seed (4 * k + 1)) (blockByte seed (4 * k + 2))
    (blockByte seed (4 * k + 3))

/-- The low and the high register of a 64-bit telemetry value (R24, R25). -/
def lowWord (v : BitVec 64) : Word := v.extractLsb' 0 32
def highWord (v : BitVec 64) : Word := v.extractLsb' 32 32

/-- The interrupt output (R90): high while a pending source is enabled. -/
def irq (s : State) : Bool := s.irqPend &&& s.irqEn != 0

end Sys2Proof.Machine
end

