-- ==== Sys2Proof/Machine/Cipher.lean ====
section
/-! DEFINITION. The cipher engine (spec/41_cipher_engine.md rules R56 to R63): the counter, the
keystream, and the two transforms, each a pure function. The block cipher is an argument `E` of the
keystream, as R63 allows; `blockCipher` is this hardware's. -/

namespace Sys2Proof.Machine

/-- `BLOCK_CIPHER` (R6, R63): key, input block, output block. -/
def blockCipher : Bytes16 → Bytes16 → Bytes16 := aes128

/-- `CtrAdd(S, j)` (R57): the 128-bit big-endian counter, plus `j`, modulo 2^128. -/
def ctrAdd (S : Bytes16) (j : Nat) : Bytes16 := BitVec.ofNat 128 (S.toNat + j)

/-- `Keystream(K, S, n)` (R58): the first `n` bytes of `E(K, CtrAdd(S, 0)) ++ E(K, CtrAdd(S, 1)) ++ ..`,
`ceil(n / 16)` blocks in all. -/
def keystream (E : Bytes16 → Bytes16 → Bytes16) (K S : Bytes16) (n : Nat) : Bytes :=
  ((List.range ((n + 15) / 16)).flatMap (fun j => blockBytes (E K (ctrAdd S j)))).take n

/-- `CtrXor(K, S, P)` (R59). -/
def ctrXor (E : Bytes16 → Bytes16 → Bytes16) (K S : Bytes16) (P : Bytes) : Bytes :=
  xorBytes P (keystream E K S P.length)

/-- `LegacyXor(X, P)` (R60). -/
def legacyXor (X : Byte) (P : Bytes) : Bytes := P.map (· ^^^ X)

/-- `Transform(MODE, KEY, SEED, XKEY, P)` (R56) of an instance's configuration. `SEED` is only read:
a frame works on its own copy of the counter (R62). -/
def transform (c : Settings) (P : Bytes) : Bytes :=
  match c.mode with
  | .ctr => ctrXor blockCipher c.key c.seed P
  | .legacyXor => legacyXor c.xkey P

end Sys2Proof.Machine
end

