-- ==== Sys2Proof/Machine/Telemetry.lean ====
section
/-! DEFINITION. The telemetry accumulator (spec/44_telemetry.md rules R79 to R82). -/

namespace Sys2Proof.Machine

/-- `max(a, b)` of two unsigned values. -/
def maxWord (a b : Word) : Word := if a < b then b else a

/-- The accumulator after one more video frame (R81), before any summary: `kf` says whether the frame
is a key frame, `elapsed` is its drawn time. -/
def Stats.addFrame (kf : Bool) (elapsed : Word) (t : Stats) : Stats :=
  { frames := t.frames + 1
    totalUs := t.totalUs + elapsed.setWidth 64
    kframes := if kf then t.kframes + 1 else t.kframes
    kfUs := if kf then t.kfUs + elapsed.setWidth 64 else t.kfUs
    maxUs := if kf then maxWord t.maxUs elapsed else t.maxUs }

/-- The summary of an accumulator (R82), with the configuration at emission. -/
def Summary.latch (c : Settings) (t : Stats) (m : Summary) : Summary :=
  { mode := c.mode, policy := c.policy, frames := t.frames, kframes := t.kframes,
    totalUs := t.totalUs, kfUs := t.kfUs, maxUs := t.maxUs, count := m.count + 1 }

/-- `EmitSummary()` (R82): latch the summary, set `IRQ_PEND.SUMMARY`, reset all five fields. -/
def emitSummary (s : State) : State :=
  setPending irqSummary { s with sum := Summary.latch s.cfg s.stats s.sum, stats := Stats.zero }

/-- `if FRAMES = SUMMARY_PERIOD: EmitSummary()` (R81). -/
def summaryIfDue (s : State) : State :=
  if s.stats.frames.toNat = Config.summaryPeriod then emitSummary s else s

/-- `StatsUpdate(kf)` (R81): one draw, the counts and times, and the summary when it is due. -/
def statsUpdate (kf : Bool) (s : State) : State :=
  summaryIfDue { s with stats := s.stats.addFrame kf (drawElapsed s), draws := s.draws + 1 }

end Sys2Proof.Machine
end

