-- ==== Sys2Proof/Machine/ConfigCommands.lean ====
section
/-! DEFINITION. The configuration and provisioning commands (spec/40_config_commands.md rules R47 to R55).
Each ends in `complete(OK, 0, 0)`, or in `complete(NOT_PROVISIONED, 0, 0)` for `ADV_SEED` without a seed. -/

namespace Sys2Proof.Machine

/-- The common end of a setter (R47): the new configuration, and `complete(OK, 0, 0)`. -/
def finishSetter (c : Settings) (s : State) : Result := .next (complete .ok .none 0 { s with cfg := c })

/-- `SET_KEY` (R48). -/
def execSetKey (s : State) : Result :=
  finishSetter { s.cfg with key := operandD s.snap.ops, keyV := true } s

/-- `SET_SEED` (R49). -/
def execSetSeed (s : State) : Result :=
  finishSetter { s.cfg with seed := operandD s.snap.ops, seedV := true } s

/-- `SET_MODE` (R50). -/
def execSetMode (m : Mode) (s : State) : Result := finishSetter { s.cfg with mode := m } s

/-- `SET_POLICY` (R51). -/
def execSetPolicy (p : Policy) (s : State) : Result := finishSetter { s.cfg with policy := p } s

/-- `SET_FORCE_FAIL` (R52): illegal on a build without the test hooks (R44). -/
def execSetForceFail (f : Bool) (s : State) : Result :=
  if s.params.testHooks then finishSetter { s.cfg with forceFail := f } s
  else .next (completeIllegal s)

/-- `SET_MARKER` (R53). -/
def execSetMarker (v : Byte) (s : State) : Result :=
  finishSetter { s.cfg with marker := v, markerV := true } s

/-- `SET_XKEY` (R54). -/
def execSetXkey (v : Byte) (s : State) : Result :=
  finishSetter { s.cfg with xkey := v, xkeyV := true } s

/-- `ADV_SEED` (R55). -/
def execAdvSeed (s : State) : Result :=
  if s.cfg.seedV then
    finishSetter { s.cfg with seed := ctrAdd s.cfg.seed (operandCount s.snap.ops) } s
  else .next (complete .notProvisioned .none 0 s)

end Sys2Proof.Machine
end

