-- ==== Sys2Proof/Machine/FrameCommands.lean ====
section
/-! DEFINITION. Frame classification, the trailer, and the two frame commands
(spec/42_frame_commands.md rules R66 to R75). -/

namespace Sys2Proof.Machine

/-- `IsKeyFrame(md, P)` (R67): a video frame whose first byte exists and has bit 0 clear. -/
def isKeyFrame (md : Media) : Bytes → Bool
  | [] => false
  | b :: _ => md == .video && !b.getLsbD 0

/-- `ShouldEncrypt(POLICY, md, P)` (R68). -/
def shouldEncrypt (policy : Policy) (md : Media) (P : Bytes) : Bool :=
  match policy with
  | .always => true
  | .keyframeOnly => isKeyFrame md P

/-- `EncTrailer(enc)` (R73). -/
def encTrailer (c : Settings) (enc : Bool) : Byte := if enc then c.marker else 0

/-- `TrailerOK(t)` (R75): all 8 bits equal. -/
def trailerOK (c : Settings) (t : Byte) : Bool := t == c.marker

/-- The transformed frame of a payload (R72, R73): the transformed or copied bytes, then the trailer. -/
def encFrame (c : Settings) (md : Media) (P : Bytes) : Bytes :=
  let enc := shouldEncrypt c.policy md P
  (if enc then transform c P else P) ++ [encTrailer c enc]

/-- The `STATS` phase of `ENCRYPT` (R66, R81): video frames only. -/
def frameStats (md : Media) (P : Bytes) (s : State) : State :=
  match md with
  | .video => statsUpdate (isKeyFrame .video P) s
  | .audio => s

/-- `ENCRYPT` past its checks (R72): transform, trailer, telemetry, completion. -/
def encryptFrame (md : Media) (s : State) : State :=
  let n := s.snap.ops.inLen.toNat
  let P := memRead s.mem s.snap.ops.inAddr.toNat n
  let written := { s with mem := memWrite s.mem s.snap.ops.outAddr.toNat (encFrame s.cfg md P) }
  complete .ok .none (BitVec.ofNat 32 (n + 1)) (frameStats md P written)

/-- `ENCRYPT` (R72), its checks in the order of R92: legality, forced failure, contract, provisioning. -/
def execEncrypt (md : Media) (s : State) : Result :=
  if s.params.role ≠ .enc then .next (completeIllegal s)
  else if s.cfg.forceFail then .next (complete .forcedFailure .forced 0 s)
  else
    match encContract s.snap.ops with
    | some cause => .next (raiseFatal cause s)
    | none =>
      if provisioned s.cfg then .next (encryptFrame md s)
      else .next (complete .notProvisioned .none 0 s)

/-- `MemWrite` of the output of `DECRYPT`, then its completion (R74). -/
def finishDecrypt (out : Bytes) (code : Code) (cause : Cause) (result : Nat) (s : State) : State :=
  complete code cause (BitVec.ofNat 32 result)
    { s with mem := memWrite s.mem s.snap.ops.outAddr.toNat out }

/-- `DECRYPT` past its checks (R74): the trailer check and the transform, or the pass-through of the
legacy mode. -/
def decryptFrame (s : State) : State :=
  let m := s.snap.ops.inLen.toNat - 1
  let X := memRead s.mem s.snap.ops.inAddr.toNat s.snap.ops.inLen.toNat
  let C := X.take m
  let t := X.getD m 0
  match s.cfg.mode with
  | .ctr =>
    let out := ctrXor blockCipher s.cfg.key s.cfg.seed C
    if trailerOK s.cfg t then finishDecrypt out .ok .none m s
    else finishDecrypt out .failedToDecrypt .trailer 0 s
  | .legacyXor =>
    let out := legacyXor s.cfg.xkey C
    if trailerOK s.cfg t then finishDecrypt out .ok .none m s
    else
      match s.cfg.policy with
      | .keyframeOnly => finishDecrypt C .ok .none m s
      | .always => finishDecrypt out .failedToDecrypt .trailer 0 s

/-- `DECRYPT` (R74), its checks in the order of R92. The media type is read by no rule (R43). -/
def execDecrypt (_md : Media) (s : State) : Result :=
  if s.params.role ≠ .dec then .next (completeIllegal s)
  else if s.cfg.forceFail then .next (complete .failedToDecrypt .forced 0 s)
  else
    match decContract s.snap.ops with
    | some cause => .next (raiseFatal cause s)
    | none =>
      if provisioned s.cfg then .next (decryptFrame s)
      else .next (complete .notProvisioned .none 0 s)

end Sys2Proof.Machine
end

