-- ==== Sys2Proof/Machine/SizeCommands.lean ====
section
/-! DEFINITION. The output-size commands (spec/43_size_commands.md rules R77 and R78). The media type is
read by no rule (R43). -/

namespace Sys2Proof.Machine

/-- `ENC_MAXOUT` (R77). -/
def execEncMaxout (_md : Media) (s : State) : Result :=
  let n := s.snap.ops.inLen.toNat
  if s.params.role ≠ .enc then .next (completeIllegal s)
  else if n = 2 ^ 32 - 1 then .next (complete .sizeError .none 0 s)
  else .next (complete .ok .none (BitVec.ofNat 32 (n + 1)) s)

/-- `DEC_MAXOUT` (R78). -/
def execDecMaxout (_md : Media) (s : State) : Result :=
  let n := s.snap.ops.inLen.toNat
  if s.params.role ≠ .dec then .next (completeIllegal s)
  else if n = 0 then .next (complete .sizeError .none 0 s)
  else .next (complete .ok .none (BitVec.ofNat 32 (n - 1)) s)

end Sys2Proof.Machine
end

