-- ==== Sys2Proof/Machine/Dispatch.lean ====
section
/-! DEFINITION. The one dispatch of a legal-encoding command to its meaning (spec/42_frame_commands.md
rule R66, phase DISPATCH). -/

namespace Sys2Proof.Machine

def exec (i : Instr) (s : State) : Host.Outcome State Fault Refusal :=
  match i with
  | .setKey => Sys2Proof.Machine.execSetKey s
  | .setSeed => Sys2Proof.Machine.execSetSeed s
  | .setMode m => Sys2Proof.Machine.execSetMode m s
  | .setPolicy p => Sys2Proof.Machine.execSetPolicy p s
  | .setForceFail f => Sys2Proof.Machine.execSetForceFail f s
  | .setMarker v => Sys2Proof.Machine.execSetMarker v s
  | .setXkey v => Sys2Proof.Machine.execSetXkey v s
  | .advSeed => Sys2Proof.Machine.execAdvSeed s
  | .encrypt md => Sys2Proof.Machine.execEncrypt md s
  | .decrypt md => Sys2Proof.Machine.execDecrypt md s
  | .encMaxout md => Sys2Proof.Machine.execEncMaxout md s
  | .decMaxout md => Sys2Proof.Machine.execDecMaxout md s

end Sys2Proof.Machine
end

