-- ==== Sys2Proof/Machine/Window.lean ====
section
/-! DEFINITION. The register window (spec/10_state.md rules R12 to R25): which register stands at which
offset, what a host read of it returns, and what a host write does to it. -/

namespace Sys2Proof.Machine

/-- The registers of the window, in offset order (R12). -/
inductive Reg where
  | cmd | status | result | cfg | irqEn | irqPend
  | data0 | data1 | data2 | data3
  | inAddr | inLen | outAddr | outLen
  | seed0 | seed1 | seed2 | seed3
  | stFrames | stKframes | stTotalLo | stTotalHi | stKfLo | stKfHi | stMax
  | sumCfg | sumFrames | sumKframes | sumTotalLo | sumTotalHi | sumKfLo | sumKfHi | sumMax | sumCount
  /-- the offsets `0x88 .. 0xFC` -/
  | reserved
deriving DecidableEq, Repr

/-- The register at an offset of the window (R12). -/
def regAt (offset : Nat) : Reg :=
  match offset with
  | 0x00 => .cmd
  | 0x04 => .status
  | 0x08 => .result
  | 0x0C => .cfg
  | 0x10 => .irqEn
  | 0x14 => .irqPend
  | 0x18 => .data0
  | 0x1C => .data1
  | 0x20 => .data2
  | 0x24 => .data3
  | 0x28 => .inAddr
  | 0x2C => .inLen
  | 0x30 => .outAddr
  | 0x34 => .outLen
  | 0x38 => .seed0
  | 0x3C => .seed1
  | 0x40 => .seed2
  | 0x44 => .seed3
  | 0x48 => .stFrames
  | 0x4C => .stKframes
  | 0x50 => .stTotalLo
  | 0x54 => .stTotalHi
  | 0x58 => .stKfLo
  | 0x5C => .stKfHi
  | 0x60 => .stMax
  | 0x64 => .sumCfg
  | 0x68 => .sumFrames
  | 0x6C => .sumKframes
  | 0x70 => .sumTotalLo
  | 0x74 => .sumTotalHi
  | 0x78 => .sumKfLo
  | 0x7C => .sumKfHi
  | 0x80 => .sumMax
  | 0x84 => .sumCount
  | _ => .reserved

/-- What a host read of a register returns (R12, R16 to R25). A read has no side effect (R13). -/
def readReg (r : Reg) (s : State) : Word :=
  match r with
  | .cmd => 0
  | .status => statusWord s.status
  | .result => s.result
  | .cfg => cfgWord s.params s.cfg
  | .irqEn => s.irqEn.setWidth 32
  | .irqPend => s.irqPend.setWidth 32
  | .data0 => s.staging.data0
  | .data1 => s.staging.data1
  | .data2 => s.staging.data2
  | .data3 => s.staging.data3
  | .inAddr => s.staging.inAddr
  | .inLen => s.staging.inLen
  | .outAddr => s.staging.outAddr
  | .outLen => s.staging.outLen
  | .seed0 => seedWord s.cfg.seed 0
  | .seed1 => seedWord s.cfg.seed 1
  | .seed2 => seedWord s.cfg.seed 2
  | .seed3 => seedWord s.cfg.seed 3
  | .stFrames => s.stats.frames
  | .stKframes => s.stats.kframes
  | .stTotalLo => lowWord s.stats.totalUs
  | .stTotalHi => highWord s.stats.totalUs
  | .stKfLo => lowWord s.stats.kfUs
  | .stKfHi => highWord s.stats.kfUs
  | .stMax => s.stats.maxUs
  | .sumCfg => sumCfgWord s.sum
  | .sumFrames => s.sum.frames
  | .sumKframes => s.sum.kframes
  | .sumTotalLo => lowWord s.sum.totalUs
  | .sumTotalHi => highWord s.sum.totalUs
  | .sumKfLo => lowWord s.sum.kfUs
  | .sumKfHi => highWord s.sum.kfUs
  | .sumMax => s.sum.maxUs
  | .sumCount => s.sum.count
  | .reserved => 0

/-- A host write of `IRQ_PEND` (R19, W1C): `IRQ_PEND <- IRQ_PEND & ~v[3:0]`. -/
def clearPending (v : Word) (s : State) : State :=
  { s with irqPend := s.irqPend &&& ~~~(v.extractLsb' 0 4) }

/-- What a host write of `v` to a register does (R12): read-only and reserved registers ignore it. -/
def writeReg (r : Reg) (v : Word) (s : State) : State :=
  match r with
  | .cmd => writeCmd v s
  | .irqEn => { s with irqEn := v.extractLsb' 0 4 }
  | .irqPend => clearPending v s
  | .data0 => { s with staging := { s.staging with data0 := v } }
  | .data1 => { s with staging := { s.staging with data1 := v } }
  | .data2 => { s with staging := { s.staging with data2 := v } }
  | .data3 => { s with staging := { s.staging with data3 := v } }
  | .inAddr => { s with staging := { s.staging with inAddr := v } }
  | .inLen => { s with staging := { s.staging with inLen := v } }
  | .outAddr => { s with staging := { s.staging with outAddr := v } }
  | .outLen => { s with staging := { s.staging with outLen := v } }
  | .status => s
  | .result => s
  | .cfg => s
  | .seed0 => s
  | .seed1 => s
  | .seed2 => s
  | .seed3 => s
  | .stFrames => s
  | .stKframes => s
  | .stTotalLo => s
  | .stTotalHi => s
  | .stKfLo => s
  | .stKfHi => s
  | .stMax => s
  | .sumCfg => s
  | .sumFrames => s
  | .sumKframes => s
  | .sumTotalLo => s
  | .sumTotalHi => s
  | .sumKfLo => s
  | .sumKfHi => s
  | .sumMax => s
  | .sumCount => s
  | .reserved => s

/-- Does an access of `bytes` bytes at host address `addr` touch the window (R12)? -/
def touchesWindow (base addr bytes : Nat) : Bool :=
  decide (addr < base + Config.windowBytes) && decide (base < addr + bytes)

/-- Is it a supported access (R13): 32 bits wide, inside the window, at an offset that is a multiple
of 4? -/
def supportedAccess (base addr bytes : Nat) : Bool :=
  decide (bytes = 4) && decide (base ≤ addr) && decide ((addr - base) % 4 = 0) &&
    decide (addr < base + Config.windowBytes)

/-- A host register access (R12, R13): the action on the register it names, or the refusal. -/
def registerAccess (addr bytes : Nat) (act : Reg → State → State) (s : State) : Result :=
  if supportedAccess s.params.regBase addr bytes then
    .next (act (regAt (addr - s.params.regBase)) s)
  else if touchesWindow s.params.regBase addr bytes then .refused .unsupportedRegisterAccess
  else .refused .outsideRegisterWindow

end Sys2Proof.Machine
end

