-- ==== Sys2Proof/Machine/Inputs.lean ====
section
/-! DEFINITION. What each input does: the host's register and buffer accesses (spec/10_state.md rules R10
to R14, spec/20_memory.md rule R39), the engine's turn (R14, R66), and the reset input
(spec/70_reset_and_hazards.md rule R101). -/

namespace Sys2Proof.Machine

/-- The engine's execution transition (R14, R66): decode the latched word, then run it, or complete an
illegal word (R44). -/
def runCommand (s : State) : Result :=
  match decodeWord s.snap.cmd with
  | .error _ => .next (completeIllegal s)
  | .ok i => exec i s

/-- A turn of the engine: the command in flight is executed; between commands the engine holds all its
state (R66, R100). -/
def engineTurn (s : State) : Result := if s.status.busy then runCommand s else .next s

/-- Is a frame command in flight, one that is legal on this instance (R39, R44)? -/
def frameInFlight (s : State) : Bool :=
  s.status.busy &&
    match legalCommand s.params.role s.params.testHooks s.snap.cmd with
    | some i => i.isFrame
    | none => false

/-- Does address `a` lie in the input range of the snapshot? -/
def inInputRange (s : State) (a : Nat) : Bool :=
  inRange s.snap.ops.inAddr.toNat s.snap.ops.inLen.toNat a

/-- Does address `a` lie in the output range of the snapshot? -/
def inOutputRange (s : State) (a : Nat) : Bool :=
  inRange s.snap.ops.outAddr.toNat s.snap.ops.outLen.toNat a

/-- A host write to buffer memory (R10), which races with a frame command in flight on either of its
ranges (R39). -/
def hostBufWrite (a : Word) (v : Byte) (s : State) : Result :=
  if frameInFlight s && (inInputRange s a.toNat || inOutputRange s a.toNat) then
    .fault .hostBufferRace
  else .next { s with mem := s.mem.write a.toNat v }

/-- A host read of buffer memory (R10), which races with a frame command in flight on its output range
(R39). -/
def hostBufRead (a : Word) (s : State) : Result :=
  if frameInFlight s && inOutputRange s a.toNat then .fault .hostBufferRace
  else .next { s with lastRead := (s.mem.read a.toNat).setWidth 32 }

/-- A host register write (R12). -/
def hostRegWrite (addr bytes : Nat) (v : Word) (s : State) : Result :=
  registerAccess addr bytes (fun r t => writeReg r v t) s

/-- A host register read (R12): its one effect is the value returned. -/
def hostRegRead (addr bytes : Nat) (s : State) : Result :=
  registerAccess addr bytes (fun r t => { t with lastRead := readReg r t }) s

/-- Free values for `n` bytes from address `a`, of draw `d` (U8). -/
def abandonedBytes (d a : Nat) : Nat → Bytes
  | 0 => []
  | n + 1 => Config.abandonedByte d a :: abandonedBytes d (a + 1) n

/-- Buffer memory after a reset that abandons a frame command (R101, U8): the bytes of its output
range, as far as buffer memory reaches, are free values. -/
def abandonOutput (s : State) : Memory :=
  let a := s.snap.ops.outAddr.toNat
  memWrite s.mem a
    (abandonedBytes s.draws a (min s.snap.ops.outLen.toNat (Config.addrSpace - a)))

/-- The reset input (R101): every piece of the instance's state takes its reset value. Buffer memory is
not the instance's (R10): it changes only where a frame command is abandoned. -/
def applyReset (s : State) : State :=
  if frameInFlight s then
    State.resetOf s.params (abandonOutput s) s.inputs (s.draws + 1) s.lastRead
  else State.resetOf s.params s.mem s.inputs s.draws s.lastRead

/-- What one input does. -/
def takeInput (e : Input) (s : State) : Result :=
  match e with
  | .engine => engineTurn s
  | .regWrite addr bytes v => hostRegWrite addr bytes v s
  | .regRead addr bytes => hostRegRead addr bytes s
  | .bufWrite a v => hostBufWrite a v s
  | .bufRead a => hostBufRead a s
  | .reset => .next (applyReset s)

/-- The state in which the engine has accepted `w` and its turn is next (R14 a). -/
def withAccepted (w : Word) (s : State) : State :=
  { acceptCommand w s with
    status := { s.status with busy := true, fatal := false }
    inputs := .engine :: s.inputs }

/-- The next step: the oldest input; with none waiting, the engine takes its turn (R112: an accepted
command is eventually executed). -/
def nextStep (s : State) : Result :=
  match s.inputs with
  | [] => engineTurn s
  | e :: rest => takeInput e { s with inputs := rest }

end Sys2Proof.Machine
end

