-- ==== Sys2Proof/Machine/Step.lean ====
section
/-! DEFINITION. One step of the machine: one atomic transition of the host, of the engine or of the reset
input (spec/00_scope.md rule R5). -/

namespace Sys2Proof.Machine

def step : State → Host.Outcome State Fault Refusal := nextStep

/-- The state in which the very next step executes the command word `w` (log entry 7): the word has been
accepted, with the operands the staging registers hold, and the engine's turn is next. -/
def State.withFetchWord (s : State) (nbits w : Nat) : State := withAccepted (tableWord nbits w) s

end Sys2Proof.Machine
end

