-- ==== Sys2Proof/Safety.lean ====
section
/-! DEFINITION. The terms in which claims about the machine are made: what a completed command leaves
unchanged, when a frame command is ready to run, the invariants of the machine, and the parts of the spec
that a claim states in the spec's own words rather than the model's (the table of R42, the text of R44,
the numbers of R16, the polynomial arithmetic of R65). Nothing here is used by the machine. -/

namespace Sys2Proof.Machine

/-! ## What a command leaves unchanged -/

/-- Every byte of buffer memory reads as before. -/
def SameMemory (s t : State) : Prop := ∀ a, t.mem.read a = s.mem.read a

/-- Every byte of buffer memory outside the `n` bytes from `base` reads as before. -/
def SameMemoryOutside (s t : State) (base n : Nat) : Prop :=
  ∀ a, a < base ∨ base + n ≤ a → t.mem.read a = s.mem.read a

/-- The accumulator, the summary registers, and the number of draws are as before. -/
def SameTelemetry (s t : State) : Prop := t.stats = s.stats ∧ t.sum = s.sum ∧ t.draws = s.draws

/-- What no command writes: the constants, `IRQ_EN`, the staging registers (R11), the command snapshot,
and the model's own record of inputs and reads. -/
def SameElsewhere (s t : State) : Prop :=
  t.params = s.params ∧ t.irqEn = s.irqEn ∧ t.staging = s.staging ∧ t.snap = s.snap ∧
    t.inputs = s.inputs ∧ t.lastRead = s.lastRead

/-- `complete(code, cause, result)` (R86), with the pending bits `irqs` set: `FATAL` and `FATAL_CAUSE`
keep their values. -/
def CompletedWith (s t : State) (code : Code) (cause : Cause) (result : Nat) (irqs : BitVec 4) : Prop :=
  t.status.busy = false ∧ t.status.code = code ∧ t.status.cause = cause ∧
    t.status.fatal = s.status.fatal ∧ t.status.fatalCause = s.status.fatalCause ∧
    t.result.toNat = result ∧ t.irqPend = s.irqPend ||| irqs

/-- The command completes, sets `DONE`, and changes nothing else. -/
def OnlyCompletes (s t : State) (code : Code) (cause : Cause) (result : Nat) : Prop :=
  CompletedWith s t code cause result 0b0001 ∧ t.cfg = s.cfg ∧ SameTelemetry s t ∧ SameElsewhere s t ∧
    SameMemory s t

/-- A setter completes `OK` and leaves the configuration `c`, and changes nothing else (R47). -/
def SetterRan (s t : State) (c : Settings) : Prop :=
  CompletedWith s t .ok .none 0 0b0001 ∧ t.cfg = c ∧ SameTelemetry s t ∧ SameElsewhere s t ∧
    SameMemory s t

/-- The configuration `d` differs from `c` at most in the fields that the rule of command `i` names
(R47 to R55). -/
def OnlyNamedFields (i : Instr) (c d : Settings) : Prop :=
  match i with
  | .setKey => d = { c with key := d.key, keyV := d.keyV }
  | .setSeed => d = { c with seed := d.seed, seedV := d.seedV }
  | .setMode _ => d = { c with mode := d.mode }
  | .setPolicy _ => d = { c with policy := d.policy }
  | .setForceFail _ => d = { c with forceFail := d.forceFail }
  | .setMarker _ => d = { c with marker := d.marker, markerV := d.markerV }
  | .setXkey _ => d = { c with xkey := d.xkey, xkeyV := d.xkeyV }
  | .advSeed => d = { c with seed := d.seed }
  | .encrypt _ | .decrypt _ | .encMaxout _ | .decMaxout _ => d = c

/-- `raise Fatal(cause)` (R87), and nothing else changes: `CODE`, `CAUSE` and `RESULT` keep their
values, and `DONE` is not set by it. -/
def OnlyGoesFatal (s t : State) (cause : FatalCause) : Prop :=
  t.status = { s.status with busy := false, fatal := true, fatalCause := cause } ∧
    t.result = s.result ∧ t.irqPend = s.irqPend ||| 0b0100 ∧ t.cfg = s.cfg ∧ SameTelemetry s t ∧
    SameElsewhere s t ∧ SameMemory s t

/-! ## When a frame command is ready -/

/-- `Overlap(a, la, b, lb)` (R69). -/
abbrev RangesOverlap (a la b lb : Nat) : Prop := 0 < la ∧ 0 < lb ∧ a < b + lb ∧ b < a + la

/-- Both buffers of the snapshot lie in buffer memory (R69 b). -/
abbrev RangesFit (o : Staging) : Prop :=
  o.inAddr.toNat + o.inLen.toNat ≤ 2 ^ 32 ∧ o.outAddr.toNat + o.outLen.toNat ≤ 2 ^ 32

/-- The two buffers of the snapshot overlap (R69 c). -/
abbrev BuffersOverlap (o : Staging) : Prop :=
  RangesOverlap o.inAddr.toNat o.inLen.toNat o.outAddr.toNat o.outLen.toNat

/-- `Prov(MODE)` (R71). -/
abbrev Provisioned (c : Settings) : Prop :=
  c.markerV = true ∧ (c.mode = .ctr → c.keyV = true ∧ c.seedV = true) ∧
    (c.mode = .legacyXor → c.xkeyV = true)

/-- `ENCRYPT` passes all its checks: it is legal here, no failure is forced, the contract of R69 holds,
and the mode is provisioned (R71). -/
abbrev EncReady (s : State) : Prop :=
  s.params.role = .enc ∧ s.cfg.forceFail = false ∧
    s.snap.ops.outLen.toNat = s.snap.ops.inLen.toNat + 1 ∧ RangesFit s.snap.ops ∧
    ¬ BuffersOverlap s.snap.ops ∧ Provisioned s.cfg

/-- `DECRYPT` passes all its checks (R70, R71). -/
abbrev DecReady (s : State) : Prop :=
  s.params.role = .dec ∧ s.cfg.forceFail = false ∧
    s.snap.ops.outLen.toNat + 1 = s.snap.ops.inLen.toNat ∧ RangesFit s.snap.ops ∧
    ¬ BuffersOverlap s.snap.ops ∧ Provisioned s.cfg

/-- Byte `i` of a payload byte's keystream under `CTR`, or the key byte under `LEGACY_XOR`: what the
transform of R56 combines payload byte `i` with (R58, R60). -/
def padByte (c : Settings) (i : Nat) : Byte :=
  match c.mode with
  | .ctr => blockByte (blockCipher c.key (c.seed + BitVec.ofNat 128 (i / 16))) (i % 16)
  | .legacyXor => c.xkey

/-- The payload of the frame command in flight: its `LIN_LEN` input bytes (R43). -/
def payload (s : State) : Bytes := memRead s.mem s.snap.ops.inAddr.toNat s.snap.ops.inLen.toNat

/-- The frame is encrypted, not passed through (R67, R68): the policy is `ALWAYS`, or it is a video
frame with a first byte whose bit 0 is clear. -/
abbrev FrameEncrypted (s : State) (md : Media) : Prop :=
  s.cfg.policy = .always ∨
    (md = .video ∧ s.snap.ops.inLen.toNat ≥ 1 ∧
      (s.mem.read s.snap.ops.inAddr.toNat).getLsbD 0 = false)

/-- The frame in flight is a video key frame (R67). -/
abbrev VideoKeyFrame (s : State) : Prop :=
  s.snap.ops.inLen.toNat ≥ 1 ∧ (s.mem.read s.snap.ops.inAddr.toNat).getLsbD 0 = false

/-- Run the same `ENCRYPT` of a video frame `k` times, each accepted as the first was. -/
def encryptRepeatedly : Nat → State → Result
  | 0, s => .next s
  | k + 1, s =>
    match exec (.encrypt .video) s with
    | .next t => encryptRepeatedly k t
    | .fault r => .fault r
    | .refused r => .refused r

/-- The sum of `k` elapsed draws from draw number `d` on. -/
def elapsedSum (d : Nat) : Nat → Nat
  | 0 => 0
  | k + 1 => (Config.elapsedMicros d).toNat + elapsedSum (d + 1) k

/-! ## Invariants -/

/-- Buffer memory is in canonical form. -/
abbrev MemoryInv (s : State) : Prop := s.mem.wf

/-- The bounds of an accumulator of at most `n` frames (R79). -/
abbrev StatsWithin (n : Nat) (t : Stats) : Prop :=
  t.frames.toNat ≤ n ∧ t.kframes.toNat ≤ t.frames.toNat ∧
    t.totalUs.toNat ≤ t.frames.toNat * (2 ^ 32 - 1) ∧ t.kfUs.toNat ≤ t.totalUs.toNat ∧
    t.maxUs.toNat ≤ t.kfUs.toNat ∧ t.kfUs.toNat ≤ t.kframes.toNat * t.maxUs.toNat

/-- A summary is the reset value, or the values of an accumulator of exactly 300 frames (R82). -/
abbrev SummaryWithin (m : Summary) : Prop :=
  m = Summary.reset ∨
    (m.frames.toNat = 300 ∧ StatsWithin 300 ⟨m.totalUs, m.frames, m.kframes, m.kfUs, m.maxUs⟩)

/-- The telemetry invariant (R79, R82): fewer than 300 frames are counted between commands. -/
abbrev TelemetryInv (s : State) : Prop := StatsWithin 299 s.stats ∧ SummaryWithin s.sum

/-- On a Decryptor the accumulator and the summary stay at their reset values (R84). -/
abbrev DecoderInv (s : State) : Prop :=
  s.params.role = .dec → s.stats = Stats.zero ∧ s.sum = Summary.reset

/-- The codes and causes that stand together, and on which instances (R85). -/
def codeCauseLegal (role : Role) : Code → Cause → Bool
  | .ok, .none => true
  | .forcedFailure, .forced => role == .enc
  | .failedToDecrypt, .forced => role == .dec
  | .failedToDecrypt, .trailer => role == .dec
  | .illegalCmd, .none => true
  | .sizeError, .none => true
  | .notProvisioned, .none => true
  | _, _ => false

/-- The status invariant: the engine is in one of the three states of R66, a fatal cause is recorded
exactly in the fatal state (R16, R87), the code and its cause stand together (R85), and a failure has
`RESULT` 0 (R17, R85). -/
abbrev StatusInv (s : State) : Prop :=
  ¬ (s.status.busy = true ∧ s.status.fatal = true) ∧
    (s.status.fatal = true ↔ s.status.fatalCause ≠ .none) ∧
    codeCauseLegal s.params.role s.status.code s.status.cause = true ∧
    (s.status.code ≠ .ok → s.result = 0)

/-- Material whose validity bit is 0 has its reset value, and a build without the test hooks never has
`FORCE_FAIL` set (R18, R26, R44). -/
abbrev ProvisioningInv (s : State) : Prop :=
  (s.cfg.keyV = false → s.cfg.key = 0) ∧ (s.cfg.seedV = false → s.cfg.seed = 0) ∧
    (s.cfg.markerV = false → s.cfg.marker = 0) ∧ (s.cfg.xkeyV = false → s.cfg.xkey = 0) ∧
    (s.params.testHooks = false → s.cfg.forceFail = false)

/-! ## The spec's own tables, restated -/

/-- A row of the table of R42. -/
structure TableRow where
  mask : Word
  value : Word
deriving DecidableEq, Repr

/-- The `mask` and `match` columns of R42, row by row. -/
def commandTable : List TableRow :=
  [⟨0xFFFFFFFF, 0x00000001⟩, ⟨0xFFFFFFFF, 0x00000002⟩, ⟨0xFFFFFEFF, 0x00000003⟩,
   ⟨0xFFFFFEFF, 0x00000004⟩, ⟨0xFFFFFEFF, 0x00000005⟩, ⟨0xFFFF00FF, 0x00000006⟩,
   ⟨0xFFFF00FF, 0x00000007⟩, ⟨0xFFFFFFFF, 0x00000008⟩, ⟨0xFFFEFFFF, 0x00000010⟩,
   ⟨0xFFFEFFFF, 0x00000011⟩, ⟨0xFFFEFFFF, 0x00000012⟩, ⟨0xFFFEFFFF, 0x00000013⟩]

/-- A word selects a row (R42): `w & mask = match`. -/
abbrev Selects (w : Word) (r : TableRow) : Prop := w &&& r.mask = r.value

/-- The row of a command in the table of R42. -/
def rowOf : Instr → TableRow
  | .setKey => ⟨0xFFFFFFFF, 0x00000001⟩
  | .setSeed => ⟨0xFFFFFFFF, 0x00000002⟩
  | .setMode _ => ⟨0xFFFFFEFF, 0x00000003⟩
  | .setPolicy _ => ⟨0xFFFFFEFF, 0x00000004⟩
  | .setForceFail _ => ⟨0xFFFFFEFF, 0x00000005⟩
  | .setMarker _ => ⟨0xFFFF00FF, 0x00000006⟩
  | .setXkey _ => ⟨0xFFFF00FF, 0x00000007⟩
  | .advSeed => ⟨0xFFFFFFFF, 0x00000008⟩
  | .encrypt _ => ⟨0xFFFEFFFF, 0x00000010⟩
  | .decrypt _ => ⟨0xFFFEFFFF, 0x00000011⟩
  | .encMaxout _ => ⟨0xFFFEFFFF, 0x00000012⟩
  | .decMaxout _ => ⟨0xFFFEFFFF, 0x00000013⟩

/-- The twelve opcodes (R42). -/
def opcodes : List Nat := [0x01, 0x02, 0x03, 0x04, 0x05, 0x06, 0x07, 0x08, 0x10, 0x11, 0x12, 0x13]

/-- An accepted word is illegal (R44), clause by clause in the words of the rule; `op`, `imm`, `media`
and `rsv` are bits 7:0, 15:8, 16 and 31:17. -/
def IllegalWord (role : Role) (testHooks : Bool) (w : Word) : Prop :=
  let op := w.toNat % 2 ^ 8
  let imm := w.toNat / 2 ^ 8 % 2 ^ 8
  let media := w.toNat / 2 ^ 16 % 2
  let rsv := w.toNat / 2 ^ 17
  op ∉ opcodes ∨ rsv ≠ 0 ∨
    (op ∉ [0x03, 0x04, 0x05, 0x06, 0x07] ∧ imm ≠ 0) ∨
    (op ∈ [0x03, 0x04, 0x05] ∧ 2 ≤ imm) ∨
    (op ≤ 0x08 ∧ media = 1) ∨
    (op ∈ [0x10, 0x12] ∧ role = .dec) ∨
    (op ∈ [0x11, 0x13] ∧ role = .enc) ∨
    (op = 0x05 ∧ testHooks = false)

/-- Register `DATAk` (R20), `k = 0 .. 3`. -/
def dataWord (o : Staging) (k : Nat) : Word :=
  match k with
  | 0 => o.data0
  | 1 => o.data1
  | 2 => o.data2
  | _ => o.data3

/-- Register `SEEDk` (R22), `k = 0 .. 3`. -/
def seedReg (k : Nat) : Reg :=
  match k with
  | 0 => .seed0
  | 1 => .seed1
  | 2 => .seed2
  | _ => .seed3

/-- The numbers of R16 and R85. -/
def codeNumber : Code → Nat
  | .ok => 0
  | .forcedFailure => 1
  | .failedToDecrypt => 2
  | .illegalCmd => 3
  | .sizeError => 4
  | .notProvisioned => 5

def causeNumber : Cause → Nat
  | .none => 0
  | .forced => 1
  | .trailer => 2

def fatalCauseNumber : FatalCause → Nat
  | .none => 0
  | .encSize => 1
  | .decSize => 2
  | .range => 3
  | .overlap => 4

/-- The value of every register of the window that is not reserved, by offset (R12, R16 to R25), with
the fields of `STATUS`, `CFG` and `SUM_CFG` at the bit positions of R16, R18 and R25. -/
def registerValues (s : State) : List (Nat × Nat) :=
  [(0x00, 0),
   (0x04, s.status.busy.toNat + 2 * s.status.fatal.toNat + 2 ^ 4 * codeNumber s.status.code +
      2 ^ 8 * causeNumber s.status.cause + 2 ^ 12 * fatalCauseNumber s.status.fatalCause),
   (0x08, s.result.toNat),
   (0x0C, s.cfg.mode.bit.toNat + 2 * s.cfg.policy.bit.toNat + 2 ^ 2 * s.cfg.forceFail.toNat +
      2 ^ 3 * s.params.role.bit.toNat + 2 ^ 4 * s.params.testHooks.toNat +
      2 ^ 8 * s.cfg.marker.toNat + 2 ^ 16 * s.cfg.keyV.toNat + 2 ^ 17 * s.cfg.seedV.toNat +
      2 ^ 18 * s.cfg.markerV.toNat + 2 ^ 19 * s.cfg.xkeyV.toNat),
   (0x10, s.irqEn.toNat), (0x14, s.irqPend.toNat),
   (0x18, s.staging.data0.toNat), (0x1C, s.staging.data1.toNat),
   (0x20, s.staging.data2.toNat), (0x24, s.staging.data3.toNat),
   (0x28, s.staging.inAddr.toNat), (0x2C, s.staging.inLen.toNat),
   (0x30, s.staging.outAddr.toNat), (0x34, s.staging.outLen.toNat)] ++
  (List.range 4).map (fun k => (0x38 + 4 * k,
    (blockByte s.cfg.seed (4 * k)).toNat + 2 ^ 8 * (blockByte s.cfg.seed (4 * k + 1)).toNat +
      2 ^ 16 * (blockByte s.cfg.seed (4 * k + 2)).toNat +
      2 ^ 24 * (blockByte s.cfg.seed (4 * k + 3)).toNat)) ++
  [(0x48, s.stats.frames.toNat), (0x4C, s.stats.kframes.toNat),
   (0x50, s.stats.totalUs.toNat % 2 ^ 32), (0x54, s.stats.totalUs.toNat / 2 ^ 32),
   (0x58, s.stats.kfUs.toNat % 2 ^ 32), (0x5C, s.stats.kfUs.toNat / 2 ^ 32),
   (0x60, s.stats.maxUs.toNat),
   (0x64, s.sum.mode.bit.toNat + 2 * s.sum.policy.bit.toNat),
   (0x68, s.sum.frames.toNat), (0x6C, s.sum.kframes.toNat),
   (0x70, s.sum.totalUs.toNat % 2 ^ 32), (0x74, s.sum.totalUs.toNat / 2 ^ 32),
   (0x78, s.sum.kfUs.toNat % 2 ^ 32), (0x7C, s.sum.kfUs.toNat / 2 ^ 32),
   (0x80, s.sum.maxUs.toNat), (0x84, s.sum.count.toNat)]

/-- Multiplication in GF(2^8) (R64), by the bits of `b` from bit `k - 1` down. -/
def gfMulBits (a b : Byte) : Nat → Byte
  | 0 => 0
  | k + 1 => (if b.getLsbD k then (xtime^[k]) a else 0) ^^^ gfMulBits a b k

/-- `a • b` (R64). -/
def gfMul (a b : Byte) : Byte := gfMulBits a b 8

/-- The affine map of the S-box (R65). -/
def sboxAffine (b : Byte) : Byte :=
  b ^^^ b.rotateLeft 1 ^^^ b.rotateLeft 2 ^^^ b.rotateLeft 3 ^^^ b.rotateLeft 4 ^^^ 0x63

/-- Two states that differ at most in `KEY` and `XKEY`. -/
def SameButKeys (s t : State) : Prop := ∃ k x, t = { s with cfg := { s.cfg with key := k, xkey := x } }

end Sys2Proof.Machine
end

