-- ==== Sys2Proof/Certificates/Slice0/Obligations.lean ====
section
/-! DEFINITION. The statements about the machine, one `def Obligations.<Name> : Prop` each, listed in
OBLIGATIONS.json. Each docstring names the rules of spec/ it formalises. -/

open Sys2Proof Sys2Proof.Machine

/-! ## Steps, decoding and encoding -/

/-- R14, R66, R100: the engine's turn executes the decoded command, and holds all state between
commands. The queue `inputs` is the model's own (log entry 2). -/
def Obligations.StepRunsDecodedCommand : Prop :=
  ∀ (s : State) (rest : List Input) (i : Instr),
    s.inputs = .engine :: rest ∨ (s.inputs = [] ∧ rest = []) →
    (s.status.busy = true → decodeWord s.snap.cmd = .ok i →
      step s = exec i { s with inputs := rest }) ∧
    (s.status.busy = false → step s = .next { s with inputs := rest })

/-- How a command word placed by `withFetchWord` runs (log entry 7): the very next step executes it,
with the operands of the staging registers latched as R14 says. -/
def Obligations.FetchedWordRunsNext : Prop :=
  ∀ (s : State) (nbits w : Nat) (i : Instr), decodeTableWord nbits w = some i →
    step (s.withFetchWord nbits w) =
      exec i { s with
        snap := { cmd := tableWord nbits w, ops := s.staging }
        status := { s.status with busy := true, fatal := false } }

/-- Decoding the word of a command gives the command back (R40 to R42). -/
def Obligations.DecodeOfEncode : Prop := ∀ i : Instr, decodeWord (encode i) = .ok i

/-- No bit of a decoded word is dropped: the command it decodes to has that word (R40, R42, R44). -/
def Obligations.EncodeOfDecode : Prop :=
  ∀ (w : Word) (i : Instr), decodeWord w = .ok i → encode i = w

/-- R45, which the spec marks as derived (from R42 and R44): every word selects exactly one row of the
table of R42 and decodes to it, or is rejected and illegal under R44. -/
def Obligations.WordSelectsOneRow : Prop :=
  ∀ w : Word,
    ((∃ i, decodeWord w = .ok i) ↔ ∃ r ∈ commandTable, Selects w r) ∧
    (∀ i, decodeWord w = .ok i → rowOf i ∈ commandTable ∧ Selects w (rowOf i)) ∧
    (∀ r ∈ commandTable, ∀ r' ∈ commandTable, Selects w r → Selects w r' → r = r') ∧
    ((∀ r ∈ commandTable, ¬ Selects w r) → ∀ role testHooks, IllegalWord role testHooks w)

/-- R44: an accepted illegal word completes `ILLEGAL_CMD` and changes nothing else, whatever
`FORCE_FAIL` is; every other word runs a command that is legal on the instance. -/
def Obligations.IllegalWordsComplete : Prop :=
  ∀ (s : State) (rest : List Input), s.status.busy = true → s.inputs = .engine :: rest →
    (IllegalWord s.params.role s.params.testHooks s.snap.cmd →
      ∃ t, step s = .next t ∧ OnlyCompletes { s with inputs := rest } t .illegalCmd .none 0) ∧
    (¬ IllegalWord s.params.role s.params.testHooks s.snap.cmd →
      ∃ i, decodeWord s.snap.cmd = .ok i ∧ i.legalOn s.params.role s.params.testHooks = true ∧
        step s = exec i { s with inputs := rest })

/-- R42: command words written out from the table. -/
def Obligations.DecodesSpecWords : Prop :=
  decodeWord 0x00000001 = .ok .setKey ∧ decodeWord 0x00000002 = .ok .setSeed ∧
    decodeWord 0x00000103 = .ok (.setMode .ctr) ∧
    decodeWord 0x00000104 = .ok (.setPolicy .keyframeOnly) ∧
    decodeWord 0x00000005 = .ok (.setForceFail false) ∧
    decodeWord 0x0000FF06 = .ok (.setMarker 0xFF) ∧ decodeWord 0x00005A07 = .ok (.setXkey 0x5A) ∧
    decodeWord 0x00000008 = .ok .advSeed ∧ decodeWord 0x00010010 = .ok (.encrypt .video) ∧
    decodeWord 0x00000011 = .ok (.decrypt .audio) ∧
    decodeWord 0x00010012 = .ok (.encMaxout .video) ∧
    decodeWord 0x00000013 = .ok (.decMaxout .audio)

/-! ## Reset -/

/-- R26: every register and internal state element of an instance after reset, whatever its constants
and whatever stands beside it. -/
def Obligations.ResetValues : Prop :=
  ∀ (p : Params) (mem : Memory) (inputs : List Input) (d : Nat) (v : Word) (s : State),
    s = State.resetOf p mem inputs d v →
    (∀ r : Reg, (readReg r s).toNat =
      if r = .cfg then 1 + 2 ^ 3 * p.role.bit.toNat + 2 ^ 4 * p.testHooks.toNat else 0) ∧
    s.cfg.mode = .ctr ∧ s.cfg.policy = .always ∧ s.cfg.forceFail = false ∧
    s.cfg.key = 0 ∧ s.cfg.xkey = 0 ∧ s.cfg.seed = 0 ∧ s.cfg.marker = 0 ∧
    s.cfg.keyV = false ∧ s.cfg.seedV = false ∧ s.cfg.markerV = false ∧ s.cfg.xkeyV = false ∧
    s.stats.totalUs = 0 ∧ s.stats.frames = 0 ∧ s.stats.kframes = 0 ∧ s.stats.kfUs = 0 ∧
    s.stats.maxUs = 0 ∧ s.snap.cmd = 0 ∧ (∀ k, dataWord s.snap.ops k = 0) ∧
    s.snap.ops.inAddr = 0 ∧ s.snap.ops.inLen = 0 ∧ s.snap.ops.outAddr = 0 ∧ s.snap.ops.outLen = 0 ∧
    s.status.busy = false ∧ s.status.fatal = false ∧ irq s = false ∧ s.params = p ∧
    State.reset.params.testHooks = true ∧
    ∃ p' mem' inputs' d' v', State.reset = State.resetOf p' mem' inputs' d' v'

/-- The reset input (R101), in any state, puts every piece of the instance's state at its reset value;
its constants, the inputs still to come and the last read value stay. -/
def Obligations.ResetInputClearsInstance : Prop :=
  ∀ (s : State) (rest : List Input), s.inputs = .reset :: rest →
    ∃ t, step s = .next t ∧ t = State.resetOf s.params t.mem rest t.draws s.lastRead

/-- A reset leaves buffer memory alone, but for the output range of a frame command that it abandons
(R10, R101, U8). That only a frame command has an output range, and that the bytes outside it stay, is
the model's reading (log entry 4). -/
def Obligations.ResetKeepsOtherMemory : Prop :=
  ∀ (s : State) (rest : List Input), s.inputs = .reset :: rest →
    ∃ t, step s = .next t ∧
      (frameInFlight s = false → t.mem = s.mem) ∧
      SameMemoryOutside s t s.snap.ops.outAddr.toNat s.snap.ops.outLen.toNat

/-! ## Invariants -/

/-- The invariants below hold of an instance right after reset, beside any memory in canonical form. -/
def Obligations.InvariantsHoldAtReset : Prop :=
  (∀ (p : Params) (mem : Memory) (inputs : List Input) (d : Nat) (v : Word) (s : State),
    mem.wf → s = State.resetOf p mem inputs d v →
    MemoryInv s ∧ TelemetryInv s ∧ StatusInv s ∧ DecoderInv s ∧ ProvisioningInv s) ∧
  MemoryInv State.reset ∧ TelemetryInv State.reset ∧ StatusInv State.reset ∧
    DecoderInv State.reset ∧ ProvisioningInv State.reset

/-- Every step keeps buffer memory in canonical form, so that equal memories are equal data; its
addresses stay below 2^32 (R27, R28). -/
def Obligations.StepKeepsMemoryCanonical : Prop :=
  ∀ s t : State, MemoryInv s → step s = .next t → MemoryInv t

/-- R79, whose bounds the spec marks as derived (from R80 and R82): `FRAMES` and `KFRAMES` never exceed
300, the sums never exceed `300 * (2^32 - 1)`, and no update of the accumulator wraps. -/
def Obligations.StepKeepsTelemetryBounds : Prop :=
  (∀ s t : State, TelemetryInv s → step s = .next t → TelemetryInv t) ∧
  (∀ (u : Stats) (kf : Bool) (e : Word), StatsWithin 299 u →
    StatsWithin 300 (u.addFrame kf e) ∧
    (u.addFrame kf e).totalUs.toNat ≤ 300 * (2 ^ 32 - 1) ∧
    (u.addFrame kf e).kfUs.toNat ≤ 300 * (2 ^ 32 - 1) ∧
    (u.addFrame kf e).frames.toNat = u.frames.toNat + 1 ∧
    (u.addFrame kf e).totalUs.toNat = u.totalUs.toNat + e.toNat ∧
    (u.addFrame kf e).kframes.toNat = u.kframes.toNat + kf.toNat ∧
    (u.addFrame kf e).kfUs.toNat = u.kfUs.toNat + kf.toNat * e.toNat ∧
    (u.addFrame kf e).maxUs.toNat = max u.maxUs.toNat (kf.toNat * e.toNat))

/-- Every step keeps the engine in one of the three states of R66, with a status that R16, R17 and R85
allow. -/
def Obligations.StepKeepsStatusLegal : Prop :=
  ∀ s t : State, StatusInv s → step s = .next t → StatusInv t

/-- R84: `DECRYPT` does not update the accumulator, and on a `DEC` instance the accumulator and the
summary registers stay at their reset values. -/
def Obligations.StepKeepsDecoderTelemetry : Prop :=
  (∀ (s t : State) (md : Media), exec (.decrypt md) s = .next t → SameTelemetry s t) ∧
  (∀ s t : State, DecoderInv s → step s = .next t → DecoderInv t)

/-- Every step keeps unprovisioned material at its reset value, and `FORCE_FAIL` clear on a build
without the test hooks (R18, R26, R44). -/
def Obligations.StepKeepsProvisioning : Prop :=
  ∀ s t : State, ProvisioningInv s → step s = .next t → ProvisioningInv t

/-! ## Whole-machine rules -/

/-- R18: the constants never change; a validity bit is cleared by reset only; `MODE`, `POLICY`,
`FORCE_FAIL` and `MARKER` change by their own commands only (or by reset). -/
def Obligations.ConfigChangesOnlyByCommands : Prop :=
  ∀ s t : State, step s = .next t →
    t.params = s.params ∧
    (s.inputs.head? ≠ some .reset →
      (s.cfg.keyV = true → t.cfg.keyV = true) ∧ (s.cfg.seedV = true → t.cfg.seedV = true) ∧
      (s.cfg.markerV = true → t.cfg.markerV = true) ∧ (s.cfg.xkeyV = true → t.cfg.xkeyV = true) ∧
      (t.cfg.mode ≠ s.cfg.mode →
        s.status.busy = true ∧ decodeWord s.snap.cmd = .ok (.setMode t.cfg.mode)) ∧
      (t.cfg.policy ≠ s.cfg.policy →
        s.status.busy = true ∧ decodeWord s.snap.cmd = .ok (.setPolicy t.cfg.policy)) ∧
      (t.cfg.forceFail ≠ s.cfg.forceFail →
        s.status.busy = true ∧ decodeWord s.snap.cmd = .ok (.setForceFail t.cfg.forceFail)) ∧
      (t.cfg.marker ≠ s.cfg.marker →
        s.status.busy = true ∧ decodeWord s.snap.cmd = .ok (.setMarker t.cfg.marker)))

/-- R22: `SEED0`..`SEED3` read back the seed, ignore writes and reset to 0; no command but `SET_SEED`
and `ADV_SEED` writes `SEED`. -/
def Obligations.SeedReadbackAndWriters : Prop :=
  (∀ (s : State) (k b : Nat), k < 4 → b < 4 →
    wordByte (readReg (seedReg k) s) b = blockByte s.cfg.seed (4 * k + b)) ∧
  (∀ k, k < 4 → regAt (0x38 + 4 * k) = seedReg k ∧ readReg (seedReg k) State.reset = 0 ∧
    ∀ (v : Word) (s : State), writeReg (seedReg k) v s = s) ∧
  (∀ (i : Instr) (s t : State), exec i s = .next t → t.cfg.seed ≠ s.cfg.seed →
    i = .setSeed ∨ i = .advSeed)

/-- R27, R28: only the frame commands touch buffer memory, and they write only the bytes from
`LOUT_ADDR` that their rules give: `LIN_LEN + 1` for an `ENCRYPT` past its checks, `LIN_LEN - 1` for a
`DECRYPT` past its checks, none otherwise. -/
def Obligations.BufferBytesTouched : Prop :=
  ∀ (i : Instr) (s t : State), exec i s = .next t →
    (i.isFrame = false → SameMemory s t) ∧
    (∀ md, i = .encrypt md → EncReady s →
      SameMemoryOutside s t s.snap.ops.outAddr.toNat (s.snap.ops.inLen.toNat + 1)) ∧
    (∀ md, i = .encrypt md → ¬ EncReady s → SameMemory s t) ∧
    (∀ md, i = .decrypt md → DecReady s →
      SameMemoryOutside s t s.snap.ops.outAddr.toNat (s.snap.ops.inLen.toNat - 1)) ∧
    (∀ md, i = .decrypt md → ¬ DecReady s → SameMemory s t)

/-- R28, R37: a command depends on buffer memory only through the bytes of its input range: run beside
another memory that agrees on that range, it ends alike, and writes alike. -/
def Obligations.OnlyInputBytesMatter : Prop :=
  ∀ (i : Instr) (s t : State) (m : Memory), exec i s = .next t →
    (∀ k < s.snap.ops.inLen.toNat,
      m.read (s.snap.ops.inAddr.toNat + k) = s.mem.read (s.snap.ops.inAddr.toNat + k)) →
    ∃ t', exec i { s with mem := m } = .next t' ∧ { t' with mem := t.mem } = t ∧
      ∀ a, t'.mem.read a = t.mem.read a ∨
        (t.mem.read a = s.mem.read a ∧ t'.mem.read a = m.read a)

/-- R85, R86, R87, R112: every command ends, not busy, with `FATAL` as before and `DONE` set, or (a frame
command) in the fatal state with its pending bit set; with a word in flight, legal or not, and no input
waiting, the next step is such an end. That the engine takes its turn when no input waits is the model's
choice, for the weak fairness of R112 (log entry 2). -/
def Obligations.EveryCommandEnds : Prop :=
  (∀ (i : Instr) (s : State), ∃ t, exec i s = .next t ∧ t.status.busy = false ∧
    ((t.status.fatal = s.status.fatal ∧ t.irqPend.getLsbD 0 = true) ∨
      (i.isFrame = true ∧ t.status.fatal = true ∧ t.irqPend.getLsbD 2 = true))) ∧
  (∀ s : State, s.status.busy = true → s.inputs = [] →
    ∃ t, step s = .next t ∧ t.status.busy = false ∧
      ((t.status.fatal = s.status.fatal ∧ t.irqPend.getLsbD 0 = true) ∨
        ((∃ i, decodeWord s.snap.cmd = .ok i ∧ i.isFrame = true) ∧
          t.status.fatal = true ∧ t.irqPend.getLsbD 2 = true)))

/-- R85: the code, cause and result that a command ends with, and when. -/
def Obligations.StatusCodesByCommand : Prop :=
  ∀ (i : Instr) (s t : State), exec i s = .next t →
    (∃ c, c ≠ .none ∧ i.isFrame = true ∧ OnlyGoesFatal s t c) ∨
    (t.irqPend.getLsbD 0 = true ∧
      match t.status.code with
      | .ok => t.status.cause = .none ∧ t.result.toNat =
          (match i with
            | .encrypt _ => s.snap.ops.inLen.toNat + 1
            | .encMaxout _ => s.snap.ops.inLen.toNat + 1
            | .decrypt _ => s.snap.ops.inLen.toNat - 1
            | .decMaxout _ => s.snap.ops.inLen.toNat - 1
            | _ => 0)
      | .forcedFailure => (∃ md, i = .encrypt md) ∧ s.cfg.forceFail = true ∧
          t.status.cause = .forced ∧ t.result = 0
      | .failedToDecrypt => (∃ md, i = .decrypt md) ∧ t.result = 0 ∧
          ((s.cfg.forceFail = true ∧ t.status.cause = .forced) ∨
            (DecReady s ∧ t.status.cause = .trailer ∧
              s.mem.read (s.snap.ops.inAddr.toNat + (s.snap.ops.inLen.toNat - 1)) ≠ s.cfg.marker ∧
              ¬ (s.cfg.mode = .legacyXor ∧ s.cfg.policy = .keyframeOnly)))
      | .illegalCmd => i.legalOn s.params.role s.params.testHooks = false ∧
          t.status.cause = .none ∧ t.result = 0
      | .sizeError => t.status.cause = .none ∧ t.result = 0 ∧
          ((∃ md, i = .encMaxout md ∧ s.snap.ops.inLen.toNat = 2 ^ 32 - 1) ∨
            (∃ md, i = .decMaxout md ∧ s.snap.ops.inLen.toNat = 0))
      | .notProvisioned => t.status.cause = .none ∧ t.result = 0 ∧
          ((∃ md, (i = .encrypt md ∨ i = .decrypt md) ∧ ¬ Provisioned s.cfg) ∨
            (i = .advSeed ∧ s.cfg.seedV = false)))

/-! ## Configuration commands -/

/-- R48: `SET_KEY` stores the 16 staged bytes as the key, in the order of R20. -/
def Obligations.SetKeyStoresStagedBytes : Prop :=
  decodeWord 0x00000001 = .ok .setKey ∧
  ∀ s : State, ∃ t, exec .setKey s = .next t ∧
    SetterRan s t { s.cfg with key := t.cfg.key, keyV := true } ∧
    ∀ k b, k < 4 → b < 4 →
      blockByte t.cfg.key (4 * k + b) = wordByte (dataWord s.snap.ops k) b

/-- R49: `SET_SEED` stores the 16 staged bytes as the counter, the first most significant. -/
def Obligations.SetSeedStoresStagedBytes : Prop :=
  decodeWord 0x00000002 = .ok .setSeed ∧
  ∀ s : State, ∃ t, exec .setSeed s = .next t ∧
    SetterRan s t { s.cfg with seed := t.cfg.seed, seedV := true } ∧
    ∀ k < 4, readReg (seedReg k) t = dataWord s.snap.ops k ∧
      ∀ b < 4, blockByte t.cfg.seed (4 * k + b) = wordByte (dataWord s.snap.ops k) b

/-- R50: `SET_MODE`. -/
def Obligations.SetModeEffect : Prop :=
  decodeWord 0x00000003 = .ok (.setMode .legacyXor) ∧ decodeWord 0x00000103 = .ok (.setMode .ctr) ∧
  (∀ w : Word, w.toNat % 2 ^ 8 = 0x03 → 2 ≤ w.toNat / 2 ^ 8 % 2 ^ 8 → ∃ e, decodeWord w = .error e) ∧
  ∀ (s : State) (m : Mode), ∃ t, exec (.setMode m) s = .next t ∧
    SetterRan s t { s.cfg with mode := m }

/-- R51: `SET_POLICY`. -/
def Obligations.SetPolicyEffect : Prop :=
  decodeWord 0x00000004 = .ok (.setPolicy .always) ∧
  decodeWord 0x00000104 = .ok (.setPolicy .keyframeOnly) ∧
  (∀ w : Word, w.toNat % 2 ^ 8 = 0x04 → 2 ≤ w.toNat / 2 ^ 8 % 2 ^ 8 → ∃ e, decodeWord w = .error e) ∧
  ∀ (s : State) (p : Policy), ∃ t, exec (.setPolicy p) s = .next t ∧
    SetterRan s t { s.cfg with policy := p }

/-- R52: `SET_FORCE_FAIL` executes, while `FORCE_FAIL` is set too, on a build with the test hooks, and is
illegal without them. -/
def Obligations.SetForceFailEffect : Prop :=
  decodeWord 0x00000005 = .ok (.setForceFail false) ∧
  decodeWord 0x00000105 = .ok (.setForceFail true) ∧
  (∀ w : Word, w.toNat % 2 ^ 8 = 0x05 → 2 ≤ w.toNat / 2 ^ 8 % 2 ^ 8 → ∃ e, decodeWord w = .error e) ∧
  ∀ (s : State) (f : Bool),
    (s.params.testHooks = true → ∃ t, exec (.setForceFail f) s = .next t ∧
      SetterRan s t { s.cfg with forceFail := f }) ∧
    (s.params.testHooks = false → ∃ t, exec (.setForceFail f) s = .next t ∧
      OnlyCompletes s t .illegalCmd .none 0)

/-- R53, R54: `SET_MARKER` and `SET_XKEY`, for every byte. -/
def Obligations.SetMarkerAndXkeyEffect : Prop :=
  ∀ (s : State) (v : Byte),
    decodeWord (0x00000006 ||| (v.setWidth 32 <<< 8)) = .ok (.setMarker v) ∧
    decodeWord (0x00000007 ||| (v.setWidth 32 <<< 8)) = .ok (.setXkey v) ∧
    (∃ t, exec (.setMarker v) s = .next t ∧
      SetterRan s t { s.cfg with marker := v, markerV := true }) ∧
    (∃ t, exec (.setXkey v) s = .next t ∧ SetterRan s t { s.cfg with xkey := v, xkeyV := true })

/-- R55: `ADV_SEED` adds the 32-bit count to the stored counter modulo 2^128, if a seed was set. -/
def Obligations.AdvSeedEffect : Prop :=
  decodeWord 0x00000008 = .ok .advSeed ∧
  ∀ s : State,
    (s.cfg.seedV = true → ∃ t, exec .advSeed s = .next t ∧
      SetterRan s t { s.cfg with seed := t.cfg.seed } ∧
      t.cfg.seed.toNat = (s.cfg.seed.toNat + s.snap.ops.data0.toNat) % 2 ^ 128) ∧
    (s.cfg.seedV = false → ∃ t, exec .advSeed s = .next t ∧ OnlyCompletes s t .notProvisioned .none 0)

/-- R47: what the eight configuration commands have in common. They execute alike on both roles, whatever
`FORCE_FAIL` is and whatever buffer memory holds, touch no buffer byte and no telemetry, change only the
configuration fields that their rules name, and write `RESULT` 0. -/
def Obligations.ConfigCommandsInCommon : Prop :=
  ∀ (i : Instr) (s : State), (encode i).toNat % 2 ^ 8 ≤ 0x08 →
    ∃ t, exec i s = .next t ∧ t.result = 0 ∧ SameMemory s t ∧ SameTelemetry s t ∧
      SameElsewhere s t ∧ t.status.fatal = s.status.fatal ∧ t.irqPend = s.irqPend ||| 0b0001 ∧
      t.status.code ≠ .forcedFailure ∧
      OnlyNamedFields i s.cfg t.cfg ∧ t.status.fatalCause = s.status.fatalCause ∧
      ∀ (r : Role) (f : Bool) (m : Memory), ∃ t',
        exec i { s with params := { s.params with role := r },
                        cfg := { s.cfg with forceFail := f }, mem := m } = .next t' ∧
        t'.mem = m ∧ t'.status = t.status ∧ t'.result = t.result ∧ t'.irqPend = t.irqPend ∧
        { t'.cfg with forceFail := t.cfg.forceFail } = t.cfg

/-! ## Output-size commands -/

/-- R77: `ENC_MAXOUT`. -/
def Obligations.EncMaxoutResult : Prop :=
  ∀ (s : State) (md : Media),
    decodeWord (0x00000012 ||| (if md = .video then 0x00010000 else 0)) = .ok (.encMaxout md) ∧
    (s.params.role = .enc → ∃ t, exec (.encMaxout md) s = .next t ∧
      if s.snap.ops.inLen.toNat = 2 ^ 32 - 1 then OnlyCompletes s t .sizeError .none 0
      else OnlyCompletes s t .ok .none (s.snap.ops.inLen.toNat + 1)) ∧
    (s.params.role = .dec → ∃ t, exec (.encMaxout md) s = .next t ∧ OnlyCompletes s t .illegalCmd .none 0)

/-- R78: `DEC_MAXOUT`. -/
def Obligations.DecMaxoutResult : Prop :=
  ∀ (s : State) (md : Media),
    decodeWord (0x00000013 ||| (if md = .video then 0x00010000 else 0)) = .ok (.decMaxout md) ∧
    (s.params.role = .dec → ∃ t, exec (.decMaxout md) s = .next t ∧
      if s.snap.ops.inLen.toNat = 0 then OnlyCompletes s t .sizeError .none 0
      else OnlyCompletes s t .ok .none (s.snap.ops.inLen.toNat - 1)) ∧
    (s.params.role = .enc → ∃ t, exec (.decMaxout md) s = .next t ∧ OnlyCompletes s t .illegalCmd .none 0)

/-! ## Frame commands -/

/-- R72, R74, R92: a frame command on the other role is illegal; on its own role, `FORCE_FAIL` fails it
before its contract and its provisioning are looked at. -/
def Obligations.ForcedFailureComesFirst : Prop :=
  ∀ (s : State) (md : Media),
    (s.params.role = .dec → ∃ t, exec (.encrypt md) s = .next t ∧
      OnlyCompletes s t .illegalCmd .none 0) ∧
    (s.params.role = .enc → ∃ t, exec (.decrypt md) s = .next t ∧
      OnlyCompletes s t .illegalCmd .none 0) ∧
    (s.params.role = .enc → s.cfg.forceFail = true → ∃ t, exec (.encrypt md) s = .next t ∧
      OnlyCompletes s t .forcedFailure .forced 0) ∧
    (s.params.role = .dec → s.cfg.forceFail = true → ∃ t, exec (.decrypt md) s = .next t ∧
      OnlyCompletes s t .failedToDecrypt .forced 0)

/-- R69, R87: an `ENCRYPT` that violates its contract raises the first violation, in the order size,
range, overlap, and has no other effect; the contract comes before the provisioning. -/
def Obligations.EncContractViolations : Prop :=
  ∀ (s : State) (md : Media), s.params.role = .enc → s.cfg.forceFail = false →
    (s.snap.ops.outLen.toNat ≠ s.snap.ops.inLen.toNat + 1 →
      ∃ t, exec (.encrypt md) s = .next t ∧ OnlyGoesFatal s t .encSize) ∧
    (s.snap.ops.outLen.toNat = s.snap.ops.inLen.toNat + 1 → ¬ RangesFit s.snap.ops →
      ∃ t, exec (.encrypt md) s = .next t ∧ OnlyGoesFatal s t .range) ∧
    (s.snap.ops.outLen.toNat = s.snap.ops.inLen.toNat + 1 → RangesFit s.snap.ops →
      BuffersOverlap s.snap.ops →
      ∃ t, exec (.encrypt md) s = .next t ∧ OnlyGoesFatal s t .overlap)

/-- R70, R87: the same for `DECRYPT`, a zero-length ciphertext included. -/
def Obligations.DecContractViolations : Prop :=
  ∀ (s : State) (md : Media), s.params.role = .dec → s.cfg.forceFail = false →
    (s.snap.ops.outLen.toNat + 1 ≠ s.snap.ops.inLen.toNat →
      ∃ t, exec (.decrypt md) s = .next t ∧ OnlyGoesFatal s t .decSize) ∧
    (s.snap.ops.outLen.toNat + 1 = s.snap.ops.inLen.toNat → ¬ RangesFit s.snap.ops →
      ∃ t, exec (.decrypt md) s = .next t ∧ OnlyGoesFatal s t .range) ∧
    (s.snap.ops.outLen.toNat + 1 = s.snap.ops.inLen.toNat → RangesFit s.snap.ops →
      BuffersOverlap s.snap.ops →
      ∃ t, exec (.decrypt md) s = .next t ∧ OnlyGoesFatal s t .overlap)

/-- R71: a frame command whose mode is not provisioned completes `NOT_PROVISIONED` after its contract
check, and changes nothing else. -/
def Obligations.FramesNeedProvisioning : Prop :=
  ∀ (s : State) (md : Media), s.cfg.forceFail = false → RangesFit s.snap.ops →
    ¬ BuffersOverlap s.snap.ops → ¬ Provisioned s.cfg →
    (s.params.role = .enc → s.snap.ops.outLen.toNat = s.snap.ops.inLen.toNat + 1 →
      ∃ t, exec (.encrypt md) s = .next t ∧ OnlyCompletes s t .notProvisioned .none 0) ∧
    (s.params.role = .dec → s.snap.ops.outLen.toNat + 1 = s.snap.ops.inLen.toNat →
      ∃ t, exec (.decrypt md) s = .next t ∧ OnlyCompletes s t .notProvisioned .none 0)

/-- R72, R73, R62: a ready `ENCRYPT` writes the transformed or copied payload and its trailer, answers
the number of bytes written, and leaves `SEED` and all other configuration alone. -/
def Obligations.EncryptFrameResult : Prop :=
  ∀ (s : State) (md : Media) (n : Nat), EncReady s → n = s.snap.ops.inLen.toNat →
    ∃ t, exec (.encrypt md) s = .next t ∧
      CompletedWith s t .ok .none (n + 1)
        (if md = .video ∧ s.stats.frames.toNat + 1 = 300 then 0b0011 else 0b0001) ∧
      t.cfg = s.cfg ∧ SameElsewhere s t ∧
      (FrameEncrypted s md →
        (∀ j < n, t.mem.read (s.snap.ops.outAddr.toNat + j) =
          s.mem.read (s.snap.ops.inAddr.toNat + j) ^^^ padByte s.cfg j) ∧
        t.mem.read (s.snap.ops.outAddr.toNat + n) = s.cfg.marker) ∧
      (¬ FrameEncrypted s md →
        (∀ j < n, t.mem.read (s.snap.ops.outAddr.toNat + j) =
          s.mem.read (s.snap.ops.inAddr.toNat + j)) ∧
        t.mem.read (s.snap.ops.outAddr.toNat + n) = 0) ∧
      SameMemoryOutside s t s.snap.ops.outAddr.toNat (n + 1)

/-- R81, R82: what a ready `ENCRYPT` of a video frame does to the telemetry, for every drawn elapsed
time, with the summary at the 300th frame; every other command, and every other outcome, leaves the
telemetry unchanged. -/
def Obligations.EncryptTelemetry : Prop :=
  (∀ (s : State) (e : Word), EncReady s → e = Config.elapsedMicros s.draws →
    ∃ (t : State) (u : Stats), exec (.encrypt .video) s = .next t ∧ t.draws = s.draws + 1 ∧
      u.frames = s.stats.frames + 1 ∧ u.totalUs = s.stats.totalUs + e.setWidth 64 ∧
      (VideoKeyFrame s → u.kframes = s.stats.kframes + 1 ∧
        u.kfUs = s.stats.kfUs + e.setWidth 64 ∧ u.maxUs.toNat = max s.stats.maxUs.toNat e.toNat) ∧
      (¬ VideoKeyFrame s → u.kframes = s.stats.kframes ∧ u.kfUs = s.stats.kfUs ∧
        u.maxUs = s.stats.maxUs) ∧
      (u.frames.toNat ≠ 300 → t.stats = u ∧ t.sum = s.sum ∧ t.irqPend = s.irqPend ||| 0b0001) ∧
      (u.frames.toNat = 300 →
        t.stats = { totalUs := 0, frames := 0, kframes := 0, kfUs := 0, maxUs := 0 } ∧
        t.sum = { mode := s.cfg.mode, policy := s.cfg.policy, frames := u.frames,
                  kframes := u.kframes, totalUs := u.totalUs, kfUs := u.kfUs, maxUs := u.maxUs,
                  count := s.sum.count + 1 } ∧
        t.irqPend = s.irqPend ||| 0b0011)) ∧
  (∀ (i : Instr) (s t : State), exec i s = .next t → ¬ (i = .encrypt .video ∧ EncReady s) →
    SameTelemetry s t)

/-- R74, R75: a ready `DECRYPT` writes its output unconditionally, compares the trailer byte exactly
with `MARKER`, and answers as the mode, the policy and the comparison say. -/
def Obligations.DecryptFrameResult : Prop :=
  ∀ (s : State) (md : Media) (m : Nat) (tr : Byte), DecReady s → m + 1 = s.snap.ops.inLen.toNat →
    tr = s.mem.read (s.snap.ops.inAddr.toNat + m) →
    ∃ t, exec (.decrypt md) s = .next t ∧ t.cfg = s.cfg ∧ SameTelemetry s t ∧ SameElsewhere s t ∧
      SameMemoryOutside s t s.snap.ops.outAddr.toNat m ∧
      (s.cfg.mode = .ctr ∨ tr = s.cfg.marker ∨ s.cfg.policy = .always →
        ∀ j < m, t.mem.read (s.snap.ops.outAddr.toNat + j) =
          s.mem.read (s.snap.ops.inAddr.toNat + j) ^^^ padByte s.cfg j) ∧
      (s.cfg.mode = .legacyXor ∧ tr ≠ s.cfg.marker ∧ s.cfg.policy = .keyframeOnly →
        ∀ j < m, t.mem.read (s.snap.ops.outAddr.toNat + j) =
          s.mem.read (s.snap.ops.inAddr.toNat + j)) ∧
      (tr = s.cfg.marker ∨ (s.cfg.mode = .legacyXor ∧ s.cfg.policy = .keyframeOnly) →
        CompletedWith s t .ok .none m 0b0001) ∧
      (tr ≠ s.cfg.marker ∧ (s.cfg.mode = .ctr ∨ s.cfg.policy = .always) →
        CompletedWith s t .failedToDecrypt .trailer 0 0b0001)

/-- R67: the key-frame heuristic. -/
def Obligations.KeyFrameHeuristic : Prop :=
  (∀ (md : Media) (P : Bytes), isKeyFrame md P = true ↔
    md = .video ∧ P.length ≥ 1 ∧ (P.getD 0 0).getLsbD 0 = false) ∧
  (∀ (b : Byte) (P Q : Bytes) (md : Media), isKeyFrame md (b :: P) = isKeyFrame md (b :: Q))

/-- R68: the selective-encryption policy. -/
def Obligations.EncryptionPolicy : Prop :=
  ∀ (p : Policy) (md : Media) (P : Bytes), shouldEncrypt p md P = true ↔
    p = .always ∨ isKeyFrame md P = true

/-! ## The cipher engine -/

/-- R57: the counter is the 128-bit big-endian number of its bytes, the whole of it is advanced, and it
wraps; two advances are one by the sum. -/
def Obligations.CounterArithmetic : Prop :=
  ∀ (S : Bytes16) (j k : Nat),
    S.toNat = (List.range 16).foldl (fun x i => 256 * x + (blockByte S i).toNat) 0 ∧
    (ctrAdd S j).toNat = (S.toNat + j) % 2 ^ 128 ∧
    ctrAdd (ctrAdd S j) k = ctrAdd S (j + k)

/-- R58: how keystream bytes line up with payload bytes, for every block cipher. -/
def Obligations.KeystreamAlignment : Prop :=
  ∀ (E : Bytes16 → Bytes16 → Bytes16) (K S : Bytes16) (n : Nat),
    (keystream E K S n).length = n ∧
    (∀ i < n, (keystream E K S n).getD i 0 = blockByte (E K (ctrAdd S (i / 16))) (i % 16)) ∧
    ctrAdd S 0 = S

/-- R59, R60: the two transforms, byte by byte, for every block cipher. -/
def Obligations.TransformBytes : Prop :=
  ∀ (E : Bytes16 → Bytes16 → Bytes16) (K S : Bytes16) (X : Byte) (P : Bytes),
    (ctrXor E K S P).length = P.length ∧ (legacyXor X P).length = P.length ∧
    ∀ i < P.length,
      (ctrXor E K S P).getD i 0 = P.getD i 0 ^^^ (keystream E K S P.length).getD i 0 ∧
      (legacyXor X P).getD i 0 = P.getD i 0 ^^^ X

/-- R61, which the spec marks as derived (from R59 and R60): both transforms are involutions, for every
block cipher. -/
def Obligations.TransformsAreInvolutions : Prop :=
  ∀ (E : Bytes16 → Bytes16 → Bytes16) (K S : Bytes16) (X : Byte) (P : Bytes),
    ctrXor E K S (ctrXor E K S P) = P ∧ legacyXor X (legacyXor X P) = P

/-- R109: under one key and one seed the keystream is reused: the XOR of two ciphertexts of one length
is the XOR of their plaintexts. -/
def Obligations.KeystreamReuse : Prop :=
  ∀ (E : Bytes16 → Bytes16 → Bytes16) (K S : Bytes16) (P Q : Bytes), P.length = Q.length →
    xorBytes (ctrXor E K S P) (ctrXor E K S Q) = xorBytes P Q

/-- The published block of FIPS-197 C.1, and a block of spec/95_test_vectors.md. -/
def Obligations.AesPublishedBlocks : Prop :=
  blockCipher 0x000102030405060708090a0b0c0d0e0f 0x00112233445566778899aabbccddeeff =
    0x69c4e0d86a7b0430d8cdb78070b4c55a ∧
  blockCipher 0xaaaaaaaaaaaaaaaaaaaaaaaaaaaaaaaa 0 = 0xbaebc618a55c351f25cedf37bf70f390

/-- R65: the S-box is the multiplicative inverse in GF(2^8), 0 mapped to 0, followed by the affine map. -/
def Obligations.SboxIsInverseThenAffine : Prop :=
  sbox 0x00 = 0x63 ∧ sbox 0x53 = 0xed ∧
  ∀ x : Byte, ∃ y : Byte, (x ≠ 0 → gfMul x y = 1) ∧ (x = 0 → y = 0) ∧ sbox x = sboxAffine y

/-! ## The host interface -/

/-- R14, R89: a `CMD` write is accepted with every operand latched, or dropped with `OVR` set and nothing
else changed; a command then executes from the snapshot alone, whatever the staging registers hold
meanwhile, and a write to a staging register (`DATA0` at 0x18 to `OUT_LEN` at 0x34) changes nothing but
the staging registers. -/
def Obligations.CommandAcceptance : Prop :=
  (∀ (s : State) (rest : List Input) (w : Word),
    s.inputs = .regWrite s.params.regBase 4 w :: rest →
    (s.status.busy = false ∧ s.status.fatal = false →
      step s = .next { s with inputs := rest, snap := { cmd := w, ops := s.staging },
                              status := { s.status with busy := true } }) ∧
    (s.status.busy = true ∨ s.status.fatal = true →
      step s = .next { s with inputs := rest, irqPend := s.irqPend ||| 0b1000 })) ∧
  (∀ (i : Instr) (s t : State) (g : Staging), exec i s = .next t →
    t.status.busy = false ∧ t.staging = s.staging ∧
    exec i { s with staging := g } = .next { t with staging := g }) ∧
  (∀ (s : State) (rest : List Input) (k : Nat) (v : Word), 6 ≤ k → k ≤ 13 →
    s.inputs = .regWrite (s.params.regBase + 4 * k) 4 v :: rest →
    ∃ g, step s = .next { s with inputs := rest, staging := g })

/-- R12, R13, R16 to R25: what an aligned 32-bit host read returns at every offset, and that it has no
side effect. -/
def Obligations.RegisterReads : Prop :=
  ∀ (s : State) (rest : List Input) (off : Nat),
    s.inputs = .regRead (s.params.regBase + off) 4 :: rest →
    (∀ v, (off, v) ∈ registerValues s →
      ∃ x : Word, x.toNat = v ∧ step s = .next { s with inputs := rest, lastRead := x }) ∧
    (off % 4 = 0 → 0x88 ≤ off → off ≤ 0xFC →
      step s = .next { s with inputs := rest, lastRead := 0 })

/-- R12, R19, R20, R21: what an aligned 32-bit host write of `v` does at every offset but `CMD`:
read-only and reserved registers ignore it, `IRQ_EN` and the staging registers read back what was
written and nothing else changes, and `IRQ_PEND` is cleared where `v` has ones. -/
def Obligations.RegisterWrites : Prop :=
  ∀ (s : State) (rest : List Input) (off : Nat) (v : Word), off % 4 = 0 →
    s.inputs = .regWrite (s.params.regBase + off) 4 v :: rest →
    (off = 0x04 ∨ off = 0x08 ∨ off = 0x0C ∨ (0x38 ≤ off ∧ off ≤ 0xFC) →
      step s = .next { s with inputs := rest }) ∧
    (off = 0x10 → step s = .next { s with inputs := rest, irqEn := v.extractLsb' 0 4 }) ∧
    (off = 0x14 →
      step s = .next { s with inputs := rest, irqPend := s.irqPend &&& ~~~(v.extractLsb' 0 4) }) ∧
    (0x18 ≤ off ∧ off ≤ 0x34 → ∃ g, step s = .next { s with inputs := rest, staging := g } ∧
      readReg (regAt off) { s with staging := g } = v ∧
      ∀ r, r ≠ regAt off → readReg r { s with staging := g } = readReg r s)

/-- R13: a host access that touches the window and is not an aligned 32-bit access is refused; every
aligned 32-bit access has a step. -/
def Obligations.UnsupportedAccessRefused : Prop :=
  ∀ (s : State) (rest : List Input) (addr bytes : Nat) (v : Word),
    s.inputs = .regWrite addr bytes v :: rest ∨ s.inputs = .regRead addr bytes :: rest →
    (∃ a, s.params.regBase ≤ a ∧ a < s.params.regBase + 256 ∧ addr ≤ a ∧ a < addr + bytes) →
    ((bytes = 4 ∧ ∃ k, addr = s.params.regBase + 4 * k) → ∃ t, step s = .next t) ∧
    (¬ (bytes = 4 ∧ ∃ k, addr = s.params.regBase + 4 * k) →
      step s = .refused .unsupportedRegisterAccess)

/-- R39: a host access to the buffers of the frame command in flight is the fault `HostBufferRace`;
any other host access to buffer memory writes or reads its byte and changes nothing else. That only a
frame command that is legal on the instance has buffers in flight is the model's reading (log entry 8). -/
def Obligations.HostBufferAccess : Prop :=
  ∀ (s : State) (rest : List Input) (a : Word) (v : Byte) (inFlight : Prop),
    (inFlight ↔ s.status.busy = true ∧ ∃ i, decodeWord s.snap.cmd = .ok i ∧ i.isFrame = true ∧
      i.legalOn s.params.role s.params.testHooks = true) →
    (s.inputs = .bufWrite a v :: rest →
      (inFlight ∧
          ((s.snap.ops.inAddr.toNat ≤ a.toNat ∧
              a.toNat < s.snap.ops.inAddr.toNat + s.snap.ops.inLen.toNat) ∨
            (s.snap.ops.outAddr.toNat ≤ a.toNat ∧
              a.toNat < s.snap.ops.outAddr.toNat + s.snap.ops.outLen.toNat)) →
        step s = .fault .hostBufferRace) ∧
      (¬ (inFlight ∧
          ((s.snap.ops.inAddr.toNat ≤ a.toNat ∧
              a.toNat < s.snap.ops.inAddr.toNat + s.snap.ops.inLen.toNat) ∨
            (s.snap.ops.outAddr.toNat ≤ a.toNat ∧
              a.toNat < s.snap.ops.outAddr.toNat + s.snap.ops.outLen.toNat))) →
        ∃ m, step s = .next { s with inputs := rest, mem := m } ∧ Memory.read m a.toNat = v ∧
          ∀ x, x ≠ a.toNat → Memory.read m x = s.mem.read x)) ∧
    (s.inputs = .bufRead a :: rest →
      (inFlight ∧ s.snap.ops.outAddr.toNat ≤ a.toNat ∧
          a.toNat < s.snap.ops.outAddr.toNat + s.snap.ops.outLen.toNat →
        step s = .fault .hostBufferRace) ∧
      (¬ (inFlight ∧ s.snap.ops.outAddr.toNat ≤ a.toNat ∧
          a.toNat < s.snap.ops.outAddr.toNat + s.snap.ops.outLen.toNat) →
        step s = .next { s with inputs := rest, lastRead := (s.mem.read a.toNat).setWidth 32 }))

/-- R88: in the fatal state no command executes and every `CMD` write is dropped; the configuration, the
telemetry and the status keep their values; the other register accesses work as usual; reset leaves it,
and nothing else does. -/
def Obligations.FatalStateIsSticky : Prop :=
  (∀ s : State, s.inputs.head? = some .reset → ∃ t, step s = .next t ∧ t.status.fatal = false) ∧
  ∀ (s : State), s.status.fatal = true → s.status.busy = false → s.inputs.head? ≠ some .reset →
    (∀ t, step s = .next t →
      t.status = s.status ∧ t.cfg = s.cfg ∧ SameTelemetry s t ∧ t.result = s.result ∧
      t.snap = s.snap) ∧
    (∀ (rest : List Input) (w : Word), s.inputs = .regWrite s.params.regBase 4 w :: rest →
      step s = .next { s with inputs := rest, irqPend := s.irqPend ||| 0b1000 }) ∧
    (∀ (rest : List Input) (k : Nat) (v : Word), k < 64 →
      (s.inputs = .regRead (s.params.regBase + 4 * k) 4 :: rest →
        step s = .next { s with inputs := rest,
                                lastRead := readReg (regAt (4 * k)) { s with inputs := rest } }) ∧
      (s.inputs = .regWrite (s.params.regBase + 4 * k) 4 v :: rest → 1 ≤ k →
        step s = .next (writeReg (regAt (4 * k)) v { s with inputs := rest })))

/-- R90: the interrupt output, and what sets each pending bit, whatever `IRQ_EN` holds: each bit is newly
set by its source event only, and its source event leaves it set. -/
def Obligations.InterruptSources : Prop :=
  (∀ s : State, irq s = true ↔
    ∃ i < 4, s.irqPend.getLsbD i = true ∧ s.irqEn.getLsbD i = true) ∧
  (∀ s t : State, step s = .next t →
    (s.irqPend.getLsbD 0 = false → t.irqPend.getLsbD 0 = true →
      s.status.busy = true ∧ t.status.busy = false ∧ t.status.fatal = s.status.fatal) ∧
    (s.irqPend.getLsbD 1 = false → t.irqPend.getLsbD 1 = true →
      s.status.busy = true ∧ t.sum.count = s.sum.count + 1 ∧ t.stats = Stats.zero) ∧
    (s.irqPend.getLsbD 2 = false → t.irqPend.getLsbD 2 = true →
      s.status.busy = true ∧ t.status.fatal = true ∧ t.status.busy = false) ∧
    (s.irqPend.getLsbD 3 = false → t.irqPend.getLsbD 3 = true →
      (s.status.busy = true ∨ s.status.fatal = true) ∧
      ∃ w, s.inputs.head? = some (.regWrite s.params.regBase 4 w)) ∧
    (s.inputs.head? ≠ some .reset →
      (s.status.busy = true → s.status.fatal = false → t.status.busy = false →
        t.status.fatal = false → t.irqPend.getLsbD 0 = true) ∧
      (t.sum.count ≠ s.sum.count → t.irqPend.getLsbD 1 = true) ∧
      (t.status.fatal ≠ s.status.fatal → t.irqPend.getLsbD 2 = true) ∧
      (s.status.busy = true ∨ s.status.fatal = true →
        (∃ w, s.inputs.head? = some (.regWrite s.params.regBase 4 w)) →
        t.irqPend.getLsbD 3 = true)))

/-- R91: a pending bit stays set until the host writes 1 to it in `IRQ_PEND` (or reset); enabling a
pending bit asserts `irq` at once; with no source enabled, as after reset, `irq` is low. -/
def Obligations.PendingUntilCleared : Prop :=
  (∀ (s t : State) (i : Nat), step s = .next t → s.irqPend.getLsbD i = true →
    t.irqPend.getLsbD i = true ∨ s.inputs.head? = some .reset ∨
      ∃ v : Word, s.inputs.head? = some (.regWrite (s.params.regBase + 0x14) 4 v) ∧
        v.getLsbD i = true) ∧
  (∀ (s : State) (rest : List Input) (v : Word) (i : Nat), s.irqPend.getLsbD i = true →
    v.getLsbD i = true → s.inputs = .regWrite (s.params.regBase + 0x10) 4 v :: rest →
    ∃ t, step s = .next t ∧ irq t = true) ∧
  (∀ s : State, s.irqEn = 0 → irq s = false) ∧ State.reset.irqEn = 0

/-- R23: key material is not readable. Two instances that differ at most in `KEY` and `XKEY` read alike
at every register and drive `irq` alike; a command ends alike on both, and the two can differ after it
at most in the key material and in the bytes of the output range. -/
def Obligations.KeysAreNotReadable : Prop :=
  ∀ (s t : State), SameButKeys s t →
    (∀ r, readReg r s = readReg r t) ∧ irq s = irq t ∧
    ∀ (i : Instr) (s' : State), exec i s = .next s' →
      ∃ t', exec i t = .next t' ∧ (∀ r, readReg r s' = readReg r t') ∧
        SameButKeys s' { t' with mem := s'.mem } ∧
        SameMemoryOutside s' t' s.snap.ops.outAddr.toNat s.snap.ops.outLen.toNat

/-! ## Headlines -/

/-- R76, which the spec marks as derived (from R72 and R74): a frame through `ENCRYPT` and then through
the `DECRYPT` of a peer that holds the same configuration, in every combination of mode and policy, with
the hazard of a zero marker. -/
def Obligations.FrameRoundTrip : Prop :=
  ∀ (a a' b : State) (md md' : Media) (n : Nat),
    EncReady a → DecReady b → n = a.snap.ops.inLen.toNat → b.snap.ops.inLen.toNat = n + 1 →
    b.cfg.key = a.cfg.key → b.cfg.seed = a.cfg.seed → b.cfg.xkey = a.cfg.xkey →
    b.cfg.marker = a.cfg.marker → b.cfg.mode = a.cfg.mode → b.cfg.policy = a.cfg.policy →
    exec (.encrypt md) a = .next a' →
    (∀ j ≤ n, b.mem.read (b.snap.ops.inAddr.toNat + j) = a'.mem.read (a.snap.ops.outAddr.toNat + j)) →
    ∃ b', exec (.decrypt md') b = .next b' ∧
      (FrameEncrypted a md →
        (∀ j < n, a'.mem.read (a.snap.ops.outAddr.toNat + j) =
          a.mem.read (a.snap.ops.inAddr.toNat + j) ^^^ padByte a.cfg j) ∧
        a'.mem.read (a.snap.ops.outAddr.toNat + n) = a.cfg.marker ∧
        CompletedWith b b' .ok .none n 0b0001 ∧
        ∀ j < n, b'.mem.read (b.snap.ops.outAddr.toNat + j) =
          a.mem.read (a.snap.ops.inAddr.toNat + j)) ∧
      (¬ FrameEncrypted a md →
        (∀ j < n, a'.mem.read (a.snap.ops.outAddr.toNat + j) =
          a.mem.read (a.snap.ops.inAddr.toNat + j)) ∧
        a'.mem.read (a.snap.ops.outAddr.toNat + n) = 0) ∧
      (¬ FrameEncrypted a md → a.cfg.mode = .ctr → a.cfg.marker ≠ 0 →
        CompletedWith b b' .failedToDecrypt .trailer 0 0b0001 ∧
        ∀ j < n, b'.mem.read (b.snap.ops.outAddr.toNat + j) =
          a.mem.read (a.snap.ops.inAddr.toNat + j) ^^^ padByte a.cfg j) ∧
      (¬ FrameEncrypted a md → a.cfg.mode = .legacyXor → a.cfg.marker ≠ 0 →
        CompletedWith b b' .ok .none n 0b0001 ∧
        ∀ j < n, b'.mem.read (b.snap.ops.outAddr.toNat + j) =
          a.mem.read (a.snap.ops.inAddr.toNat + j)) ∧
      (¬ FrameEncrypted a md → a.cfg.marker = 0 →
        CompletedWith b b' .ok .none n 0b0001 ∧
        ∀ j < n, b'.mem.read (b.snap.ops.outAddr.toNat + j) =
          a.mem.read (a.snap.ops.inAddr.toNat + j) ^^^ padByte a.cfg j)

/-- The telemetry period (R81, R82; vectors TM4 and TM5): from an empty accumulator, 299 video frames
emit nothing, and the 300th emits the summary of all 300 and empties the accumulator again. The elapsed
times are free values, taken by draw number, and `elapsedSum` adds those of 300 draws (log entry 5). -/
def Obligations.SummaryAfter300VideoFrames : Prop :=
  ∀ s : State, EncReady s → s.stats = Stats.zero →
    (∃ t, encryptRepeatedly 299 s = .next t ∧ t.stats.frames.toNat = 299 ∧ t.sum = s.sum ∧
      t.irqPend = s.irqPend ||| 0b0001) ∧
    (∃ t, encryptRepeatedly 300 s = .next t ∧ t.stats = Stats.zero ∧ t.sum.frames.toNat = 300 ∧
      t.sum.kframes.toNat = (if VideoKeyFrame s then 300 else 0) ∧
      t.sum.totalUs.toNat = elapsedSum s.draws 300 ∧
      t.sum.kfUs.toNat = (if VideoKeyFrame s then elapsedSum s.draws 300 else 0) ∧
      t.sum.mode = s.cfg.mode ∧ t.sum.policy = s.cfg.policy ∧ t.sum.count = s.sum.count + 1 ∧
      t.irqPend = s.irqPend ||| 0b0011 ∧ t.draws = s.draws + 300)
end

