-- ==== Sys2Proof/Laws/State.lean ====
section
/-! SUPPORT. What each shared update of the state does to each field, so that no later proof unfolds a
record update. -/

namespace Sys2Proof.Machine

section setPending

variable (bit : BitVec 4) (s : State)

@[simp] theorem setPending_params : (setPending bit s).params = s.params := rfl
@[simp] theorem setPending_cfg : (setPending bit s).cfg = s.cfg := rfl
@[simp] theorem setPending_stats : (setPending bit s).stats = s.stats := rfl
@[simp] theorem setPending_sum : (setPending bit s).sum = s.sum := rfl
@[simp] theorem setPending_status : (setPending bit s).status = s.status := rfl
@[simp] theorem setPending_result : (setPending bit s).result = s.result := rfl
@[simp] theorem setPending_irqEn : (setPending bit s).irqEn = s.irqEn := rfl
@[simp] theorem setPending_irqPend : (setPending bit s).irqPend = s.irqPend ||| bit := rfl
@[simp] theorem setPending_staging : (setPending bit s).staging = s.staging := rfl
@[simp] theorem setPending_snap : (setPending bit s).snap = s.snap := rfl
@[simp] theorem setPending_mem : (setPending bit s).mem = s.mem := rfl
@[simp] theorem setPending_inputs : (setPending bit s).inputs = s.inputs := rfl
@[simp] theorem setPending_draws : (setPending bit s).draws = s.draws := rfl
@[simp] theorem setPending_lastRead : (setPending bit s).lastRead = s.lastRead := rfl

end setPending

section complete

variable (code : Code) (cause : Cause) (r : Word) (s : State)

@[simp] theorem complete_params : (complete code cause r s).params = s.params := rfl
@[simp] theorem complete_cfg : (complete code cause r s).cfg = s.cfg := rfl
@[simp] theorem complete_stats : (complete code cause r s).stats = s.stats := rfl
@[simp] theorem complete_sum : (complete code cause r s).sum = s.sum := rfl
@[simp] theorem complete_status : (complete code cause r s).status = { s.status with busy := false, code := code, cause := cause } := rfl
@[simp] theorem complete_result : (complete code cause r s).result = r := rfl
@[simp] theorem complete_irqEn : (complete code cause r s).irqEn = s.irqEn := rfl
@[simp] theorem complete_irqPend : (complete code cause r s).irqPend = s.irqPend ||| irqDone := rfl
@[simp] theorem complete_staging : (complete code cause r s).staging = s.staging := rfl
@[simp] theorem complete_snap : (complete code cause r s).snap = s.snap := rfl
@[simp] theorem complete_mem : (complete code cause r s).mem = s.mem := rfl
@[simp] theorem complete_inputs : (complete code cause r s).inputs = s.inputs := rfl
@[simp] theorem complete_draws : (complete code cause r s).draws = s.draws := rfl
@[simp] theorem complete_lastRead : (complete code cause r s).lastRead = s.lastRead := rfl

end complete

section raiseFatal

variable (cause : FatalCause) (s : State)

@[simp] theorem raiseFatal_params : (raiseFatal cause s).params = s.params := rfl
@[simp] theorem raiseFatal_cfg : (raiseFatal cause s).cfg = s.cfg := rfl
@[simp] theorem raiseFatal_stats : (raiseFatal cause s).stats = s.stats := rfl
@[simp] theorem raiseFatal_sum : (raiseFatal cause s).sum = s.sum := rfl
@[simp] theorem raiseFatal_status : (raiseFatal cause s).status = { s.status with busy := false, fatal := true, fatalCause := cause } := rfl
@[simp] theorem raiseFatal_result : (raiseFatal cause s).result = s.result := rfl
@[simp] theorem raiseFatal_irqEn : (raiseFatal cause s).irqEn = s.irqEn := rfl
@[simp] theorem raiseFatal_irqPend : (raiseFatal cause s).irqPend = s.irqPend ||| irqFatal := rfl
@[simp] theorem raiseFatal_staging : (raiseFatal cause s).staging = s.staging := rfl
@[simp] theorem raiseFatal_snap : (raiseFatal cause s).snap = s.snap := rfl
@[simp] theorem raiseFatal_mem : (raiseFatal cause s).mem = s.mem := rfl
@[simp] theorem raiseFatal_inputs : (raiseFatal cause s).inputs = s.inputs := rfl
@[simp] theorem raiseFatal_draws : (raiseFatal cause s).draws = s.draws := rfl
@[simp] theorem raiseFatal_lastRead : (raiseFatal cause s).lastRead = s.lastRead := rfl

end raiseFatal

section acceptCommand

variable (w : Word) (s : State)

@[simp] theorem acceptCommand_params : (acceptCommand w s).params = s.params := rfl
@[simp] theorem acceptCommand_cfg : (acceptCommand w s).cfg = s.cfg := rfl
@[simp] theorem acceptCommand_stats : (acceptCommand w s).stats = s.stats := rfl
@[simp] theorem acceptCommand_sum : (acceptCommand w s).sum = s.sum := rfl
@[simp] theorem acceptCommand_status : (acceptCommand w s).status = { s.status with busy := true } := rfl
@[simp] theorem acceptCommand_result : (acceptCommand w s).result = s.result := rfl
@[simp] theorem acceptCommand_irqEn : (acceptCommand w s).irqEn = s.irqEn := rfl
@[simp] theorem acceptCommand_irqPend : (acceptCommand w s).irqPend = s.irqPend := rfl
@[simp] theorem acceptCommand_staging : (acceptCommand w s).staging = s.staging := rfl
@[simp] theorem acceptCommand_snap : (acceptCommand w s).snap = { cmd := w, ops := s.staging } := rfl
@[simp] theorem acceptCommand_mem : (acceptCommand w s).mem = s.mem := rfl
@[simp] theorem acceptCommand_inputs : (acceptCommand w s).inputs = s.inputs := rfl
@[simp] theorem acceptCommand_draws : (acceptCommand w s).draws = s.draws := rfl
@[simp] theorem acceptCommand_lastRead : (acceptCommand w s).lastRead = s.lastRead := rfl

end acceptCommand

section emitSummary

variable (s : State)

@[simp] theorem emitSummary_params : (emitSummary s).params = s.params := rfl
@[simp] theorem emitSummary_cfg : (emitSummary s).cfg = s.cfg := rfl
@[simp] theorem emitSummary_stats : (emitSummary s).stats = Stats.zero := rfl
@[simp] theorem emitSummary_sum : (emitSummary s).sum = Summary.latch s.cfg s.stats s.sum := rfl
@[simp] theorem emitSummary_status : (emitSummary s).status = s.status := rfl
@[simp] theorem emitSummary_result : (emitSummary s).result = s.result := rfl
@[simp] theorem emitSummary_irqEn : (emitSummary s).irqEn = s.irqEn := rfl
@[simp] theorem emitSummary_irqPend : (emitSummary s).irqPend = s.irqPend ||| irqSummary := rfl
@[simp] theorem emitSummary_staging : (emitSummary s).staging = s.staging := rfl
@[simp] theorem emitSummary_snap : (emitSummary s).snap = s.snap := rfl
@[simp] theorem emitSummary_mem : (emitSummary s).mem = s.mem := rfl
@[simp] theorem emitSummary_inputs : (emitSummary s).inputs = s.inputs := rfl
@[simp] theorem emitSummary_draws : (emitSummary s).draws = s.draws := rfl
@[simp] theorem emitSummary_lastRead : (emitSummary s).lastRead = s.lastRead := rfl

end emitSummary

@[simp] theorem completeIllegal_eq (s : State) : completeIllegal s = complete .illegalCmd .none 0 s := rfl

@[simp] theorem dropCommand_eq (s : State) : dropCommand s = setPending irqOvr s := rfl

end Sys2Proof.Machine
end

