-- ==== Sys2Proof/Laws/Memory.lean ====
section
/-! SUPPORT. Buffer memory: a byte written is the byte read, every other byte is left alone, and the
canonical form is kept, so that equal memories are equal lists. -/

namespace Sys2Proof.Machine

@[simp] theorem Memory.read_nil (a : Nat) : Memory.read [] a = Config.unlistedByte := rfl

theorem Memory.read_cons (x : Nat) (c : Byte) (m : Memory) (a : Nat) :
    Memory.read ((x, c) :: m) a = if x = a then c else Memory.read m a := rfl

theorem Memory.read_erase_same (m : Memory) (a : Nat) :
    (m.erase a).read a = Config.unlistedByte := by
  induction m with
  | nil => rfl
  | cons c m ih =>
    obtain ⟨x, b⟩ := c
    by_cases h : x = a
    · simpa [Memory.erase, h] using ih
    · simpa [Memory.erase, h, Memory.read_cons] using ih

theorem Memory.read_erase_ne (m : Memory) {a x : Nat} (h : x ≠ a) :
    (m.erase a).read x = m.read x := by
  induction m with
  | nil => rfl
  | cons c m ih =>
    obtain ⟨y, b⟩ := c
    by_cases hy : y = a
    · have : y ≠ x := fun e => h (e ▸ hy)
      simpa [Memory.erase, hy, Memory.read_cons, this, h.symm] using ih
    · by_cases hx : y = x
      · simp [Memory.erase, Memory.read_cons, hx, h]
      · simpa [Memory.erase, hy, Memory.read_cons, hx] using ih

theorem Memory.mem_erase {m : Memory} {a : Nat} {c : Host.Cell} :
    c ∈ m.erase a ↔ c ∈ m ∧ c.1 ≠ a := by
  simp [Memory.erase]

theorem Memory.read_insert_same (m : Memory) (a : Nat) (b : Byte) (h : ∀ c ∈ m, c.1 ≠ a) :
    (m.insert a b).read a = b := by
  induction m with
  | nil => simp [Memory.insert, Memory.read_cons]
  | cons c m ih =>
    obtain ⟨x, d⟩ := c
    by_cases hx : a < x
    · simp [Memory.insert, hx, Memory.read_cons]
    · have hne : x ≠ a := h (x, d) (by simp)
      simpa [Memory.insert, hx, Memory.read_cons, hne] using
        ih (fun c hc => h c (by simp [hc]))

theorem Memory.read_insert_ne (m : Memory) {a x : Nat} (b : Byte) (h : x ≠ a) :
    (m.insert a b).read x = m.read x := by
  induction m with
  | nil => simp [Memory.insert, Memory.read_cons, h.symm]
  | cons c m ih =>
    obtain ⟨y, d⟩ := c
    by_cases hy : a < y
    · simp [Memory.insert, hy, Memory.read_cons, h.symm]
    · simp [Memory.insert, hy, Memory.read_cons, ih]

/-- A byte written is the byte read. -/
@[simp] theorem Memory.read_write_same (m : Memory) (a : Nat) (b : Byte) :
    (m.write a b).read a = b := by
  unfold Memory.write
  split
  · next h => rw [Memory.read_erase_same, h]
  · exact Memory.read_insert_same _ _ _ (fun c hc => (Memory.mem_erase.mp hc).2)

/-- Every other byte is left alone. -/
theorem Memory.read_write_ne (m : Memory) {a x : Nat} (b : Byte) (h : x ≠ a) :
    (m.write a b).read x = m.read x := by
  unfold Memory.write
  split
  · exact Memory.read_erase_ne m h
  · rw [Memory.read_insert_ne _ _ h, Memory.read_erase_ne m h]

theorem Memory.wf_erase {m : Memory} (h : m.wf) (a : Nat) : (m.erase a).wf :=
  ⟨h.1.filter _, fun c hc => h.2 c (Memory.mem_erase.mp hc).1⟩

theorem Memory.mem_insert {m : Memory} {a : Nat} {b : Byte} {c : Host.Cell}
    (hc : c ∈ m.insert a b) : c = (a, b) ∨ c ∈ m := by
  induction m with
  | nil => simpa [Memory.insert] using hc
  | cons d m ih =>
    obtain ⟨x, e⟩ := d
    by_cases hx : a < x
    · simpa [Memory.insert, hx] using hc
    · simp only [Memory.insert, hx, if_false, List.mem_cons] at hc ⊢
      rcases hc with hc | hc
      · exact .inr (.inl hc)
      · exact (ih hc).imp id .inr

theorem Memory.pairwise_insert {m : Memory} (a : Nat) (b : Byte)
    (h : m.Pairwise (fun c d => c.1 < d.1)) (hne : ∀ c ∈ m, c.1 ≠ a) :
    (m.insert a b).Pairwise (fun c d => c.1 < d.1) := by
  induction m with
  | nil => simp [Memory.insert]
  | cons d m ih =>
    obtain ⟨x, e⟩ := d
    rw [List.pairwise_cons] at h
    by_cases hx : a < x
    · simp only [Memory.insert, hx, if_true]
      refine List.pairwise_cons.mpr ⟨fun c hc => ?_, List.pairwise_cons.mpr h⟩
      rcases List.mem_cons.mp hc with rfl | hc
      · exact hx
      · exact Nat.lt_trans hx (h.1 c hc)
    · have hax : x ≠ a := hne (x, e) (by simp)
      simp only [Memory.insert, hx, if_false]
      refine List.pairwise_cons.mpr ⟨fun c hc => ?_, ih h.2 (fun c hc => hne c (by simp [hc]))⟩
      rcases Memory.mem_insert hc with rfl | hc
      · exact Nat.lt_of_le_of_ne (Nat.le_of_not_lt hx) hax
      · exact h.1 c hc

/-- A write keeps the canonical form. -/
theorem Memory.wf_write {m : Memory} (h : m.wf) {a : Nat} (ha : a < Config.addrSpace) (b : Byte) :
    (m.write a b).wf := by
  unfold Memory.write
  split
  · exact Memory.wf_erase h a
  · next hb =>
    have he := Memory.wf_erase h a
    refine ⟨Memory.pairwise_insert a b he.1 (fun c hc => (Memory.mem_erase.mp hc).2),
      fun c hc => ?_⟩
    rcases Memory.mem_insert hc with rfl | hc
    · exact ⟨ha, hb⟩
    · exact he.2 c hc

@[simp] theorem memRead_length (m : Memory) (a n : Nat) : (memRead m a n).length = n := by
  induction n generalizing a with
  | zero => rfl
  | succ n ih => simp [memRead, ih]

/-- Byte `i` of what `MemRead` returns. -/
theorem memRead_getD (m : Memory) (a : Nat) {n i : Nat} (h : i < n) (d : Byte) :
    (memRead m a n).getD i d = m.read (a + i) := by
  induction n generalizing a i with
  | zero => omega
  | succ n ih =>
    cases i with
    | zero => simp [memRead]
    | succ i =>
      have := ih (a + 1) (i := i) (by omega)
      simpa [memRead, Nat.add_assoc, Nat.add_comm 1 i] using this

theorem memRead_getElem (m : Memory) (a : Nat) {n i : Nat} (h : i < (memRead m a n).length) :
    (memRead m a n)[i] = m.read (a + i) := by
  have := memRead_getD m a (i := i) (n := n) (by simpa using h) 0
  rwa [List.getD_eq_getElem _ _ h] at this

theorem memRead_congr {m m' : Memory} {a n : Nat}
    (h : ∀ i < n, m'.read (a + i) = m.read (a + i)) : memRead m' a n = memRead m a n := by
  induction n generalizing a with
  | zero => rfl
  | succ n ih =>
    have h0 := h 0 (by omega)
    have ht := ih (a := a + 1) (fun i hi => by
      simpa [Nat.add_assoc, Nat.add_comm 1 i] using h (i + 1) (by omega))
    simp [memRead, ht, show m'.read a = m.read a from by simpa using h0]

theorem memRead_take (m : Memory) (a : Nat) {k n : Nat} (h : k ≤ n) :
    (memRead m a n).take k = memRead m a k := by
  induction k generalizing a n with
  | zero => rfl
  | succ k ih =>
    cases n with
    | zero => omega
    | succ n => simp [memRead, ih (a + 1) (Nat.le_of_succ_le_succ h)]

/-- `MemWrite` leaves every byte outside its range alone. -/
theorem read_memWrite_outside (m : Memory) (a : Nat) (bs : Bytes) {x : Nat}
    (h : x < a ∨ a + bs.length ≤ x) : (memWrite m a bs).read x = m.read x := by
  induction bs generalizing m a with
  | nil => rfl
  | cons b bs ih =>
    simp only [List.length_cons] at h
    rw [memWrite, ih (m.write a b) (a + 1) (by omega),
      Memory.read_write_ne m b (by omega)]

/-- `MemWrite` stores byte `i` at address `a + i`. -/
theorem read_memWrite_inside (m : Memory) (a : Nat) (bs : Bytes) {i : Nat} (h : i < bs.length) :
    (memWrite m a bs).read (a + i) = bs[i] := by
  induction bs generalizing m a i with
  | nil => simp at h
  | cons b bs ih =>
    cases i with
    | zero =>
      rw [memWrite, Nat.add_zero, read_memWrite_outside _ _ _ (by omega)]
      simp
    | succ i =>
      have := ih (m.write a b) (a + 1) (i := i) (by simpa using h)
      simpa [memWrite, Nat.add_assoc, Nat.add_comm 1 i] using this

/-- A frame `P ++ [b]` written at `a` (R73): the bytes of `P`, and `b` behind them. -/
theorem read_memWrite_snoc (m : Memory) (a : Nat) (P : Bytes) (b : Byte) :
    (∀ j < P.length, (memWrite m a (P ++ [b])).read (a + j) = P.getD j 0) ∧
      (memWrite m a (P ++ [b])).read (a + P.length) = b := by
  refine ⟨fun j hj => ?_, ?_⟩
  · rw [read_memWrite_inside _ _ _ (by simp; omega), List.getElem_append_left hj,
      List.getD_eq_getElem _ _ hj]
  · rw [read_memWrite_inside _ _ _ (by simp), List.getElem_append_right (Nat.le_refl _)]
    simp

theorem memRead_memWrite (m : Memory) (a : Nat) (bs : Bytes) :
    memRead (memWrite m a bs) a bs.length = bs := by
  refine List.ext_getElem (by simp) (fun i h₁ h₂ => ?_)
  rw [memRead_getElem _ _ h₁, read_memWrite_inside _ _ _ h₂]

/-- `MemWrite` inside buffer memory keeps the canonical form. -/
theorem wf_memWrite {m : Memory} (h : m.wf) {a : Nat} {bs : Bytes}
    (ha : a + bs.length ≤ Config.addrSpace) : (memWrite m a bs).wf := by
  induction bs generalizing m a with
  | nil => exact h
  | cons b bs ih =>
    simp only [List.length_cons] at ha
    exact ih (Memory.wf_write h (by omega) b) (by omega)

@[simp] theorem memWrite_nil (m : Memory) (a : Nat) : memWrite m a [] = m := rfl

@[simp] theorem abandonedBytes_length (d a n : Nat) : (abandonedBytes d a n).length = n := by
  induction n generalizing a with
  | zero => rfl
  | succ n ih => simp [abandonedBytes, ih]

/-- The canonical form is canonical: two memories in it that read alike are the same list. -/
theorem Memory.ext_of_wf {m m' : Memory} (h : m.wf) (h' : m'.wf)
    (hr : ∀ a, m.read a = m'.read a) : m = m' := by
  have lt_read : ∀ {m : Memory} {a : Nat}, (∀ c ∈ m, a < c.1) → m.read a = Config.unlistedByte := by
    intro m a ha
    induction m with
    | nil => rfl
    | cons c m ih =>
      obtain ⟨x, b⟩ := c
      have hx : x ≠ a := Nat.ne_of_gt (ha (x, b) (by simp))
      rw [Memory.read_cons, if_neg hx]
      exact ih (fun c hc => ha c (by simp [hc]))
  induction m generalizing m' with
  | nil =>
    cases m' with
    | nil => rfl
    | cons c m' =>
      obtain ⟨x, b⟩ := c
      have := hr x
      simp [Memory.read_cons] at this
      exact absurd this.symm (h'.2 (x, b) (by simp)).2
  | cons c m ih =>
    obtain ⟨x, b⟩ := c
    have hc := List.pairwise_cons.mp h.1
    have hb := (h.2 (x, b) (by simp)).2
    cases m' with
    | nil =>
      have := hr x
      simp [Memory.read_cons] at this
      exact absurd this hb
    | cons c' m' =>
      obtain ⟨y, b'⟩ := c'
      have hc' := List.pairwise_cons.mp h'.1
      have hb' := (h'.2 (y, b') (by simp)).2
      have hxy : x = y := by
        rcases Nat.lt_trichotomy x y with hlt | heq | hlt
        · have := hr x
          rw [Memory.read_cons, if_pos rfl, lt_read (fun c hm => by
            rcases List.mem_cons.mp hm with rfl | hm
            · exact hlt
            · exact Nat.lt_trans hlt (hc'.1 c hm))] at this
          exact absurd this hb
        · exact heq
        · have := hr y
          rw [Memory.read_cons (a := y) (x := y), if_pos rfl, lt_read (fun c hm => by
            rcases List.mem_cons.mp hm with rfl | hm
            · exact hlt
            · exact Nat.lt_trans hlt (hc.1 c hm))] at this
          exact absurd this.symm hb'
      subst hxy
      have hbb : b = b' := by simpa [Memory.read_cons] using hr x
      subst hbb
      have : m = m' := ih ⟨hc.2, fun c hm => h.2 c (by simp [hm])⟩
        ⟨hc'.2, fun c hm => h'.2 c (by simp [hm])⟩ (fun a => by
          by_cases ha : x = a
          · subst ha
            rw [lt_read (fun c hm => hc.1 c hm), lt_read (fun c hm => hc'.1 c hm)]
          · have := hr a
            rwa [Memory.read_cons, Memory.read_cons, if_neg ha, if_neg ha] at this)
      rw [this]

end Sys2Proof.Machine
end

