-- ==== Sys2Proof/Laws/Bytes.lean ====
section
/-! SUPPORT. Byte order: reading back the bytes that a packing put there. -/

namespace Sys2Proof.Machine

theorem getLsbD_blockByte (B : Bytes16) (i j : Nat) :
    (blockByte B i).getLsbD j = (decide (j < 8) && B.getLsbD (8 * (15 - i) + j)) := by
  simp [blockByte]

theorem getLsbD_wordByte (w : Word) (b j : Nat) :
    (wordByte w b).getLsbD j = (decide (j < 8) && w.getLsbD (8 * b + j)) := by
  simp [wordByte]

/-- Bit `p` of the number that a byte string appends to `acc`. -/
theorem getLsbD_foldl_bytes (l : Bytes) (acc : Bytes16) (p : Nat) (hp : p < 128) :
    (l.foldl (fun (acc : Bytes16) b => (acc <<< 8) ||| b.setWidth 128) acc).getLsbD p =
      if p < 8 * l.length then (l.getD (l.length - 1 - p / 8) 0).getLsbD (p % 8)
      else acc.getLsbD (p - 8 * l.length) := by
  induction l generalizing acc with
  | nil => simp
  | cons b l ih =>
    rw [List.foldl_cons, ih]
    simp only [List.length_cons]
    by_cases h : p < 8 * l.length
    · have h' : p < 8 * (l.length + 1) := by omega
      rw [if_pos h, if_pos h']
      have : l.length + 1 - 1 - p / 8 = (l.length - 1 - p / 8) + 1 := by omega
      rw [this, List.getD_cons_succ]
    · rw [if_neg h]
      by_cases h' : p < 8 * (l.length + 1)
      · rw [if_pos h']
        have h0 : l.length + 1 - 1 - p / 8 = 0 := by omega
        have hm : p % 8 = p - 8 * l.length := by omega
        have hlt : p - 8 * l.length < 8 := by omega
        rw [h0, List.getD_cons_zero, hm]
        simp [hlt]
        omega
      · rw [if_neg h']
        have hlt : ¬ p - 8 * l.length < 8 := by omega
        have hb : b.getLsbD (p - 8 * l.length) = false := BitVec.getLsbD_of_ge _ _ (by omega)
        have he : p - 8 * l.length - 8 = p - 8 * (l.length + 1) := by omega
        have hr : p - 8 * l.length < 128 := by omega
        simp only [BitVec.getLsbD_or, BitVec.getLsbD_shiftLeft, BitVec.getLsbD_setWidth, hr, hlt, hb, he,
          decide_true, decide_false, Bool.true_and, Bool.and_false, Bool.or_false, Bool.not_false]

/-- `B[i]` of the 16-byte string made from a list is the list's byte `i`. -/
theorem blockByte_ofBytes (l : Bytes) (h : l.length = 16) {i : Nat} (hi : i < 16) :
    blockByte (ofBytes l) i = l.getD i 0 := by
  refine BitVec.eq_of_getLsbD_eq (fun j hj => ?_)
  rw [getLsbD_blockByte, ofBytes, getLsbD_foldl_bytes _ _ _ (by omega), if_pos (by omega)]
  have h1 : l.length - 1 - (8 * (15 - i) + j) / 8 = i := by omega
  have h2 : (8 * (15 - i) + j) % 8 = j := by omega
  simp [h1, h2, hj]

/-- Byte `4k + b` of the operand `D` is byte `b` of `LDATAk` (R20). -/
theorem blockByte_operandD (o : Staging) {k b : Nat} (hk : k < 4) (hb : b < 4) :
    blockByte (operandD o) (4 * k + b) =
      wordByte (dataWord o k) b := by
  rw [operandD, blockByte_ofBytes _ (by simp [wordBytes]) (by omega)]
  have : k = 0 ∨ k = 1 ∨ k = 2 ∨ k = 3 := by omega
  have : b = 0 ∨ b = 1 ∨ b = 2 ∨ b = 3 := by omega
  rcases ‹k = 0 ∨ _› with h | h | h | h <;> rcases this with h' | h' | h' | h' <;> subst h h' <;>
    simp [wordBytes, dataWord]

theorem getLsbD_packWord (b0 b1 b2 b3 : Byte) (j : Nat) :
    (packWord b0 b1 b2 b3).getLsbD j =
      if j < 8 then b0.getLsbD j else if j - 8 < 8 then b1.getLsbD (j - 8)
      else if j - 8 - 8 < 8 then b2.getLsbD (j - 8 - 8) else b3.getLsbD (j - 8 - 8 - 8) := by
  show BitVec.getLsbD (w := 8 + 8 + 8 + 8) (b3 ++ b2 ++ b1 ++ b0) j = _
  simp only [BitVec.getLsbD_append]

/-- Byte `b` of a packed register (R20, R22). -/
theorem wordByte_packWord (b0 b1 b2 b3 : Byte) :
    wordByte (packWord b0 b1 b2 b3) 0 = b0 ∧ wordByte (packWord b0 b1 b2 b3) 1 = b1 ∧
      wordByte (packWord b0 b1 b2 b3) 2 = b2 ∧ wordByte (packWord b0 b1 b2 b3) 3 = b3 := by
  refine ⟨?_, ?_, ?_, ?_⟩ <;>
  · refine BitVec.eq_of_getLsbD_eq (fun j hj => ?_)
    rw [getLsbD_wordByte, getLsbD_packWord]
    repeat' split
    all_goals first | omega | (simp only [hj, decide_true, Bool.true_and]; congr 1; omega)

@[simp] theorem blockBytes_length (B : Bytes16) : (blockBytes B).length = 16 := by
  simp [blockBytes]

theorem blockBytes_getD (B : Bytes16) {i : Nat} (hi : i < 16) :
    (blockBytes B).getD i 0 = blockByte B i := by
  simp [blockBytes, List.getD, hi]

@[simp] theorem xorBytes_length (a b : Bytes) : (xorBytes a b).length = min a.length b.length := by
  simp [xorBytes]

theorem xorBytes_getD {a b : Bytes} {i : Nat} (ha : i < a.length) (hb : i < b.length) :
    (xorBytes a b).getD i 0 = a.getD i 0 ^^^ b.getD i 0 := by
  simp [xorBytes, List.getD, List.getElem?_zipWith, List.getElem?_eq_getElem ha,
    List.getElem?_eq_getElem hb]

/-- XOR with the same byte string twice is the identity (R61). -/
theorem xorBytes_cancel {a b : Bytes} (h : a.length ≤ b.length) : xorBytes (xorBytes a b) b = a := by
  induction a generalizing b with
  | nil => rfl
  | cons x a ih =>
    cases b with
    | nil => simp at h
    | cons y b =>
      have := ih (b := b) (by simpa using h)
      simp only [xorBytes, List.zipWith_cons_cons] at this ⊢
      rw [this, BitVec.xor_assoc, BitVec.xor_self, BitVec.xor_zero]

end Sys2Proof.Machine
end

