-- ==== Sys2Proof/Laws/Cipher.lean ====
section
/-! SUPPORT. The cipher engine: lengths, the byte at each position, and involution, for every block
cipher. -/

namespace Sys2Proof.Machine

theorem ctrAdd_eq_add (S : Bytes16) (j : Nat) : ctrAdd S j = S + BitVec.ofNat 128 j := by
  apply BitVec.eq_of_toNat_eq
  simp [ctrAdd]

theorem ctrAdd_toNat (S : Bytes16) (j : Nat) : (ctrAdd S j).toNat = (S.toNat + j) % 2 ^ 128 := by
  simp [ctrAdd]

/-- Byte `i` of a concatenation of 16-byte blocks is byte `i mod 16` of block `i / 16`. -/
theorem flatMap_blocks_getD (f : Nat → Bytes16) (k : Nat) :
    (((List.range k).flatMap (fun j => blockBytes (f j))).length = 16 * k) ∧
      ∀ i < 16 * k, ((List.range k).flatMap (fun j => blockBytes (f j))).getD i 0 =
        blockByte (f (i / 16)) (i % 16) := by
  induction k with
  | zero => simp
  | succ k ih =>
    obtain ⟨hl, hg⟩ := ih
    rw [List.range_succ, List.flatMap_append]
    refine ⟨by simp only [List.length_append, hl]; simp; omega, fun i hi => ?_⟩
    by_cases h : i < 16 * k
    · rw [List.getD_append _ _ _ _ (by omega)]
      exact hg i h
    · rw [List.getD_append_right _ _ _ _ (by omega), hl]
      have h1 : i / 16 = k := by omega
      have h2 : i % 16 = i - 16 * k := by omega
      simpa [h1, h2] using blockBytes_getD (f k) (i := i - 16 * k) (by omega)

@[simp] theorem keystream_length (E : Bytes16 → Bytes16 → Bytes16) (K S : Bytes16) (n : Nat) :
    (keystream E K S n).length = n := by
  rw [keystream, List.length_take, (flatMap_blocks_getD (fun j => E K (ctrAdd S j)) _).1]
  omega

theorem keystream_getD (E : Bytes16 → Bytes16 → Bytes16) (K S : Bytes16) {n i : Nat} (h : i < n) :
    (keystream E K S n).getD i 0 = blockByte (E K (ctrAdd S (i / 16))) (i % 16) := by
  have := (flatMap_blocks_getD (fun j => E K (ctrAdd S j)) ((n + 15) / 16)).2 i (by omega)
  rw [keystream, List.getD_eq_getElem?_getD, List.getElem?_take_of_lt h,
    ← List.getD_eq_getElem?_getD, this]

@[simp] theorem ctrXor_length (E : Bytes16 → Bytes16 → Bytes16) (K S : Bytes16) (P : Bytes) :
    (ctrXor E K S P).length = P.length := by
  simp [ctrXor]

@[simp] theorem legacyXor_length (X : Byte) (P : Bytes) : (legacyXor X P).length = P.length := by
  simp [legacyXor]

theorem ctrXor_getD (E : Bytes16 → Bytes16 → Bytes16) (K S : Bytes16) {P : Bytes} {i : Nat}
    (h : i < P.length) :
    (ctrXor E K S P).getD i 0 = P.getD i 0 ^^^ (keystream E K S P.length).getD i 0 :=
  xorBytes_getD h (by simpa using h)

theorem legacyXor_getD (X : Byte) {P : Bytes} {i : Nat} (h : i < P.length) :
    (legacyXor X P).getD i 0 = P.getD i 0 ^^^ X := by
  simp [legacyXor, List.getD, h]

theorem legacyXor_legacyXor (X : Byte) (P : Bytes) : legacyXor X (legacyXor X P) = P := by
  simp [legacyXor, Function.comp_def]

theorem ctrXor_ctrXor (E : Bytes16 → Bytes16 → Bytes16) (K S : Bytes16) (P : Bytes) :
    ctrXor E K S (ctrXor E K S P) = P := by
  rw [ctrXor, ctrXor_length]
  exact xorBytes_cancel (by simp)

@[simp] theorem transform_length (c : Settings) (P : Bytes) : (transform c P).length = P.length := by
  unfold transform
  split <;> simp

@[simp] theorem encFrame_length (c : Settings) (md : Media) (P : Bytes) :
    (encFrame c md P).length = P.length + 1 := by
  simp only [encFrame]
  split <;> simp

end Sys2Proof.Machine
end

