-- ==== Sys2Proof/Laws/Telemetry.lean ====
section
/-! SUPPORT. The telemetry accumulator: what one update can do, in one lemma, and what it leaves. -/

namespace Sys2Proof.Machine

/-- Everything `StatsUpdate` (R81) can do. -/
theorem statsUpdate_cases (kf : Bool) (s : State) (u : Stats)
    (hu : u = s.stats.addFrame kf (drawElapsed s)) :
    (u.frames.toNat ≠ Config.summaryPeriod ∧
      statsUpdate kf s = { s with stats := u, draws := s.draws + 1 }) ∨
    (u.frames.toNat = Config.summaryPeriod ∧
      statsUpdate kf s = { s with stats := Stats.zero, draws := s.draws + 1,
                                  sum := Summary.latch s.cfg u s.sum,
                                  irqPend := s.irqPend ||| irqSummary }) := by
  subst hu
  by_cases h : (s.stats.addFrame kf (drawElapsed s)).frames.toNat = Config.summaryPeriod
  · exact .inr ⟨h, if_pos h⟩
  · exact .inl ⟨h, if_neg h⟩

/-- Everything the `STATS` phase of `ENCRYPT` can do: it changes the telemetry and the pending bits
only. -/
theorem frameStats_frame (md : Media) (P : Bytes) (s : State) :
    frameStats md P s = { s with stats := (frameStats md P s).stats, sum := (frameStats md P s).sum,
                                 draws := (frameStats md P s).draws,
                                 irqPend := (frameStats md P s).irqPend } := by
  cases md with
  | audio => rfl
  | video =>
    rcases statsUpdate_cases (isKeyFrame .video P) s _ rfl with ⟨-, h⟩ | ⟨-, h⟩ <;>
      simp only [frameStats, h]

theorem frameStats_irqPend (md : Media) (P : Bytes) (s : State) :
    (frameStats md P s).irqPend = s.irqPend ∨
      ((frameStats md P s).irqPend = s.irqPend ||| irqSummary ∧
        (frameStats md P s).stats = Stats.zero ∧
        (frameStats md P s).sum.count = s.sum.count + 1) := by
  cases md with
  | audio => exact .inl rfl
  | video =>
    rcases statsUpdate_cases (isKeyFrame .video P) s _ rfl with ⟨-, h⟩ | ⟨-, h⟩
    · exact .inl (by simp only [frameStats, h])
    · exact .inr (by simp [frameStats, h, Summary.latch])

@[simp] theorem frameStats_params (md : Media) (P : Bytes) (s : State) :
    (frameStats md P s).params = s.params := by rw [frameStats_frame]
@[simp] theorem frameStats_cfg (md : Media) (P : Bytes) (s : State) :
    (frameStats md P s).cfg = s.cfg := by rw [frameStats_frame]
@[simp] theorem frameStats_status (md : Media) (P : Bytes) (s : State) :
    (frameStats md P s).status = s.status := by rw [frameStats_frame]
@[simp] theorem frameStats_result (md : Media) (P : Bytes) (s : State) :
    (frameStats md P s).result = s.result := by rw [frameStats_frame]
@[simp] theorem frameStats_irqEn (md : Media) (P : Bytes) (s : State) :
    (frameStats md P s).irqEn = s.irqEn := by rw [frameStats_frame]
@[simp] theorem frameStats_staging (md : Media) (P : Bytes) (s : State) :
    (frameStats md P s).staging = s.staging := by rw [frameStats_frame]
@[simp] theorem frameStats_snap (md : Media) (P : Bytes) (s : State) :
    (frameStats md P s).snap = s.snap := by rw [frameStats_frame]
@[simp] theorem frameStats_mem (md : Media) (P : Bytes) (s : State) :
    (frameStats md P s).mem = s.mem := by rw [frameStats_frame]
@[simp] theorem frameStats_inputs (md : Media) (P : Bytes) (s : State) :
    (frameStats md P s).inputs = s.inputs := by rw [frameStats_frame]
@[simp] theorem frameStats_lastRead (md : Media) (P : Bytes) (s : State) :
    (frameStats md P s).lastRead = s.lastRead := by rw [frameStats_frame]

/-- The `STATS` phase looks at the payload only, never at buffer memory or the key material itself
(R80, R81). -/
theorem frameStats_with (md : Media) (P : Bytes) (s : State) (m : Memory) (k : Bytes16) (x : Byte) :
    frameStats md P { s with mem := m, cfg := { s.cfg with key := k, xkey := x } } =
      { frameStats md P s with mem := m, cfg := { s.cfg with key := k, xkey := x } } := by
  cases md with
  | audio => rfl
  | video =>
    rcases statsUpdate_cases (isKeyFrame .video P) s _ rfl with ⟨h, e⟩ | ⟨h, e⟩ <;>
    rcases statsUpdate_cases (isKeyFrame .video P)
      { s with mem := m, cfg := { s.cfg with key := k, xkey := x } } _ rfl with ⟨h', e'⟩ | ⟨h', e'⟩
    · simp only [frameStats, e, e']; rfl
    · exact absurd h' h
    · exact absurd h h'
    · simp only [frameStats, e, e']; rfl

theorem maxWord_toNat (a b : Word) : (maxWord a b).toNat = max a.toNat b.toNat := by
  unfold maxWord
  split
  · next h => rw [BitVec.lt_def] at h; omega
  · next h => rw [BitVec.lt_def] at h; omega

end Sys2Proof.Machine
end

