-- ==== Sys2Proof/Laws/Frames.lean ====
section
/-! SUPPORT. The frame commands: when each check ends them, and what they write when none does. -/

namespace Sys2Proof.Machine

theorem overlap_eq_true (a la b lb : Nat) : overlap a la b lb = true ↔ RangesOverlap a la b lb := by
  simp [overlap, RangesOverlap, and_assoc]

theorem provisioned_eq_true (c : Settings) : provisioned c = true ↔ Provisioned c := by
  unfold provisioned Provisioned
  cases c.mode <;> simp

/-- The order of checks (b) and (c) of R69 and R70. -/
theorem bufferFault_cases (o : Staging) :
    (¬ RangesFit o ∧ bufferFault o = some .range) ∨
    (RangesFit o ∧ BuffersOverlap o ∧ bufferFault o = some .overlap) ∨
    (RangesFit o ∧ ¬ BuffersOverlap o ∧ bufferFault o = none) := by
  unfold bufferFault Config.addrSpace
  by_cases h : RangesFit o
  · have h' : ¬ (o.inAddr.toNat + o.inLen.toNat > 2 ^ 32 ∨ o.outAddr.toNat + o.outLen.toNat > 2 ^ 32) := by
      obtain ⟨h1, h2⟩ := h
      omega
    rw [if_neg h']
    by_cases hov : BuffersOverlap o
    · exact .inr (.inl ⟨h, hov, if_pos ((overlap_eq_true ..).mpr hov)⟩)
    · exact .inr (.inr ⟨h, hov, if_neg (fun hc => hov ((overlap_eq_true ..).mp hc))⟩)
  · have h' : o.inAddr.toNat + o.inLen.toNat > 2 ^ 32 ∨ o.outAddr.toNat + o.outLen.toNat > 2 ^ 32 := by
      unfold RangesFit at h
      omega
    exact .inl ⟨h, if_pos h'⟩

theorem encContract_eq_none {o : Staging} (h : encContract o = none) :
    o.outLen.toNat = o.inLen.toNat + 1 ∧ RangesFit o ∧ ¬ BuffersOverlap o := by
  unfold encContract at h
  split at h
  · cases h
  · next hl =>
    rcases bufferFault_cases o with ⟨-, e⟩ | ⟨-, -, e⟩ | ⟨hb, ho, -⟩
    · rw [e] at h; cases h
    · rw [e] at h; cases h
    · exact ⟨Classical.not_not.mp hl, hb, ho⟩

theorem decContract_eq_none {o : Staging} (h : decContract o = none) :
    o.outLen.toNat + 1 = o.inLen.toNat ∧ RangesFit o ∧ ¬ BuffersOverlap o := by
  unfold decContract at h
  split at h
  · cases h
  · next hl =>
    rcases bufferFault_cases o with ⟨-, e⟩ | ⟨-, -, e⟩ | ⟨hb, ho, -⟩
    · rw [e] at h; cases h
    · rw [e] at h; cases h
    · exact ⟨Classical.not_not.mp hl, hb, ho⟩

/-- Everything `ENCRYPT` can do, in the order of its checks (R92). -/
theorem execEncrypt_cases (md : Media) (s : State) :
    (s.params.role = .dec ∧ execEncrypt md s = .next (complete .illegalCmd .none 0 s)) ∨
    (s.params.role = .enc ∧ s.cfg.forceFail = true ∧
      execEncrypt md s = .next (complete .forcedFailure .forced 0 s)) ∨
    (s.params.role = .enc ∧ s.cfg.forceFail = false ∧
      s.snap.ops.outLen.toNat ≠ s.snap.ops.inLen.toNat + 1 ∧
      execEncrypt md s = .next (raiseFatal .encSize s)) ∨
    (s.params.role = .enc ∧ s.cfg.forceFail = false ∧
      s.snap.ops.outLen.toNat = s.snap.ops.inLen.toNat + 1 ∧ ¬ RangesFit s.snap.ops ∧
      execEncrypt md s = .next (raiseFatal .range s)) ∨
    (s.params.role = .enc ∧ s.cfg.forceFail = false ∧
      s.snap.ops.outLen.toNat = s.snap.ops.inLen.toNat + 1 ∧ RangesFit s.snap.ops ∧
      BuffersOverlap s.snap.ops ∧ execEncrypt md s = .next (raiseFatal .overlap s)) ∨
    (s.params.role = .enc ∧ s.cfg.forceFail = false ∧
      s.snap.ops.outLen.toNat = s.snap.ops.inLen.toNat + 1 ∧ RangesFit s.snap.ops ∧
      ¬ BuffersOverlap s.snap.ops ∧ ¬ Provisioned s.cfg ∧
      execEncrypt md s = .next (complete .notProvisioned .none 0 s)) ∨
    (EncReady s ∧ execEncrypt md s = .next (encryptFrame md s)) := by
  unfold execEncrypt
  cases hr : s.params.role with
  | dec => exact .inl ⟨rfl, rfl⟩
  | enc =>
    rw [if_neg (by simp)]
    cases hf : s.cfg.forceFail with
    | true => exact .inr (.inl ⟨rfl, rfl, rfl⟩)
    | false =>
      simp only [Bool.false_eq_true, if_false, encContract]
      by_cases hl : s.snap.ops.outLen.toNat = s.snap.ops.inLen.toNat + 1
      · rw [if_neg (by simpa using hl)]
        rcases bufferFault_cases s.snap.ops with ⟨h, e⟩ | ⟨h, ho, e⟩ | ⟨h, ho, e⟩
        · exact .inr (.inr (.inr (.inl ⟨trivial, trivial, hl, h, by rw [e]⟩)))
        · exact .inr (.inr (.inr (.inr (.inl ⟨trivial, trivial, hl, h, ho, by rw [e]⟩))))
        · rw [e]
          by_cases hp : Provisioned s.cfg
          · refine .inr (.inr (.inr (.inr (.inr (.inr ⟨⟨hr, hf, hl, h, ho, hp⟩, ?_⟩)))))
            exact if_pos ((provisioned_eq_true _).mpr hp)
          · refine .inr (.inr (.inr (.inr (.inr (.inl ⟨trivial, trivial, hl, h, ho, hp, ?_⟩)))))
            exact if_neg (fun hc => hp ((provisioned_eq_true _).mp hc))
      · rw [if_pos hl]
        exact .inr (.inr (.inl ⟨trivial, trivial, hl, rfl⟩))

/-- Everything `DECRYPT` can do, in the order of its checks (R92). -/
theorem execDecrypt_cases (md : Media) (s : State) :
    (s.params.role = .enc ∧ execDecrypt md s = .next (complete .illegalCmd .none 0 s)) ∨
    (s.params.role = .dec ∧ s.cfg.forceFail = true ∧
      execDecrypt md s = .next (complete .failedToDecrypt .forced 0 s)) ∨
    (s.params.role = .dec ∧ s.cfg.forceFail = false ∧
      s.snap.ops.outLen.toNat + 1 ≠ s.snap.ops.inLen.toNat ∧
      execDecrypt md s = .next (raiseFatal .decSize s)) ∨
    (s.params.role = .dec ∧ s.cfg.forceFail = false ∧
      s.snap.ops.outLen.toNat + 1 = s.snap.ops.inLen.toNat ∧ ¬ RangesFit s.snap.ops ∧
      execDecrypt md s = .next (raiseFatal .range s)) ∨
    (s.params.role = .dec ∧ s.cfg.forceFail = false ∧
      s.snap.ops.outLen.toNat + 1 = s.snap.ops.inLen.toNat ∧ RangesFit s.snap.ops ∧
      BuffersOverlap s.snap.ops ∧ execDecrypt md s = .next (raiseFatal .overlap s)) ∨
    (s.params.role = .dec ∧ s.cfg.forceFail = false ∧
      s.snap.ops.outLen.toNat + 1 = s.snap.ops.inLen.toNat ∧ RangesFit s.snap.ops ∧
      ¬ BuffersOverlap s.snap.ops ∧ ¬ Provisioned s.cfg ∧
      execDecrypt md s = .next (complete .notProvisioned .none 0 s)) ∨
    (DecReady s ∧ execDecrypt md s = .next (decryptFrame s)) := by
  unfold execDecrypt
  cases hr : s.params.role with
  | enc => exact .inl ⟨rfl, rfl⟩
  | dec =>
    rw [if_neg (by simp)]
    cases hf : s.cfg.forceFail with
    | true => exact .inr (.inl ⟨rfl, rfl, rfl⟩)
    | false =>
      simp only [Bool.false_eq_true, if_false, decContract]
      by_cases hl : s.snap.ops.outLen.toNat + 1 = s.snap.ops.inLen.toNat
      · rw [if_neg (by simpa using hl)]
        rcases bufferFault_cases s.snap.ops with ⟨h, e⟩ | ⟨h, ho, e⟩ | ⟨h, ho, e⟩
        · exact .inr (.inr (.inr (.inl ⟨trivial, trivial, hl, h, by rw [e]⟩)))
        · exact .inr (.inr (.inr (.inr (.inl ⟨trivial, trivial, hl, h, ho, by rw [e]⟩))))
        · rw [e]
          by_cases hp : Provisioned s.cfg
          · refine .inr (.inr (.inr (.inr (.inr (.inr ⟨⟨hr, hf, hl, h, ho, hp⟩, ?_⟩)))))
            exact if_pos ((provisioned_eq_true _).mpr hp)
          · refine .inr (.inr (.inr (.inr (.inr (.inl ⟨trivial, trivial, hl, h, ho, hp, ?_⟩)))))
            exact if_neg (fun hc => hp ((provisioned_eq_true _).mp hc))
      · rw [if_pos hl]
        exact .inr (.inr (.inl ⟨trivial, trivial, hl, rfl⟩))

/-- A ready `ENCRYPT` processes its frame. -/
theorem exec_encrypt_ready {s : State} (md : Media) (h : EncReady s) :
    exec (.encrypt md) s = .next (encryptFrame md s) := by
  obtain ⟨hr, hf, hl, hb, ho, hp⟩ := h
  rcases execEncrypt_cases md s with ⟨h, -⟩ | ⟨-, h, -⟩ | ⟨-, -, h, -⟩ | ⟨-, -, -, h, -⟩ |
    ⟨-, -, -, -, h, -⟩ | ⟨-, -, -, -, -, h, -⟩ | ⟨-, e⟩
  · rw [hr] at h; cases h
  · rw [hf] at h; cases h
  · exact absurd hl h
  · exact absurd hb h
  · exact absurd h ho
  · exact absurd hp h
  · exact e

/-- A ready `DECRYPT` processes its frame. -/
theorem exec_decrypt_ready {s : State} (md : Media) (h : DecReady s) :
    exec (.decrypt md) s = .next (decryptFrame s) := by
  obtain ⟨hr, hf, hl, hb, ho, hp⟩ := h
  rcases execDecrypt_cases md s with ⟨h, -⟩ | ⟨-, h, -⟩ | ⟨-, -, h, -⟩ | ⟨-, -, -, h, -⟩ |
    ⟨-, -, -, -, h, -⟩ | ⟨-, -, -, -, -, h, -⟩ | ⟨-, e⟩
  · rw [hr] at h; cases h
  · rw [hf] at h; cases h
  · exact absurd hl h
  · exact absurd hb h
  · exact absurd h ho
  · exact absurd hp h
  · exact e

@[simp] theorem payload_length (s : State) : (payload s).length = s.snap.ops.inLen.toNat := by
  simp [payload]

theorem payload_getD (s : State) {j : Nat} (h : j < s.snap.ops.inLen.toNat) :
    (payload s).getD j 0 = s.mem.read (s.snap.ops.inAddr.toNat + j) :=
  memRead_getD _ _ h 0

/-- Byte `j` of a transformed payload (R58 to R60). -/
theorem transform_getD (c : Settings) {P : Bytes} {j : Nat} (h : j < P.length) :
    (transform c P).getD j 0 = P.getD j 0 ^^^ padByte c j := by
  unfold transform padByte
  cases c.mode with
  | ctr =>
    show (ctrXor blockCipher c.key c.seed P).getD j 0 = _
    rw [ctrXor_getD _ _ _ h, keystream_getD _ _ _ h, ctrAdd_eq_add]
  | legacyXor => exact legacyXor_getD _ h

theorem isKeyFrame_payload (s : State) :
    isKeyFrame .video (payload s) = true ↔ VideoKeyFrame s := by
  have hlen : (payload s).length = s.snap.ops.inLen.toNat := payload_length s
  cases hp : payload s with
  | nil =>
    rw [hp] at hlen
    simp only [List.length_nil] at hlen
    simp [isKeyFrame, VideoKeyFrame, ← hlen]
  | cons b P =>
    rw [hp] at hlen
    simp only [List.length_cons] at hlen
    have h0 := payload_getD s (j := 0) (by omega)
    rw [hp, List.getD_cons_zero, Nat.add_zero] at h0
    simp only [isKeyFrame, VideoKeyFrame, ← h0]
    simp
    omega

theorem shouldEncrypt_payload (s : State) (md : Media) :
    shouldEncrypt s.cfg.policy md (payload s) = true ↔ FrameEncrypted s md := by
  unfold shouldEncrypt FrameEncrypted
  cases s.cfg.policy with
  | always => simp
  | keyframeOnly =>
    cases md with
    | audio => cases payload s <;> simp [isKeyFrame]
    | video => simpa [VideoKeyFrame] using isKeyFrame_payload s

/-- `ENCRYPT` past its checks, one equation (R72). -/
theorem encryptFrame_eq (md : Media) (s : State) :
    encryptFrame md s = complete .ok .none (BitVec.ofNat 32 (s.snap.ops.inLen.toNat + 1))
      (frameStats md (payload s)
        { s with mem := memWrite s.mem s.snap.ops.outAddr.toNat (encFrame s.cfg md (payload s)) }) :=
  rfl

section encryptFrame

variable (md : Media) (s : State)

@[simp] theorem encryptFrame_params : (encryptFrame md s).params = s.params := by simp [encryptFrame_eq]
@[simp] theorem encryptFrame_cfg : (encryptFrame md s).cfg = s.cfg := by simp [encryptFrame_eq]
@[simp] theorem encryptFrame_irqEn : (encryptFrame md s).irqEn = s.irqEn := by simp [encryptFrame_eq]
@[simp] theorem encryptFrame_staging : (encryptFrame md s).staging = s.staging := by
  simp [encryptFrame_eq]
@[simp] theorem encryptFrame_snap : (encryptFrame md s).snap = s.snap := by simp [encryptFrame_eq]
@[simp] theorem encryptFrame_inputs : (encryptFrame md s).inputs = s.inputs := by
  simp [encryptFrame_eq]
@[simp] theorem encryptFrame_lastRead : (encryptFrame md s).lastRead = s.lastRead := by
  simp [encryptFrame_eq]
@[simp] theorem encryptFrame_status : (encryptFrame md s).status =
    { s.status with busy := false, code := .ok, cause := .none } := by simp [encryptFrame_eq]
@[simp] theorem encryptFrame_result : (encryptFrame md s).result =
    BitVec.ofNat 32 (s.snap.ops.inLen.toNat + 1) := by simp [encryptFrame_eq]
@[simp] theorem encryptFrame_mem : (encryptFrame md s).mem =
    memWrite s.mem s.snap.ops.outAddr.toNat (encFrame s.cfg md (payload s)) := by
  simp [encryptFrame_eq]

end encryptFrame

/-- The bytes of the transformed frame: an encrypted payload with the marker (R73). -/
theorem encFrame_encrypted {s : State} {md : Media} (h : FrameEncrypted s md) :
    encFrame s.cfg md (payload s) = transform s.cfg (payload s) ++ [s.cfg.marker] := by
  simp [encFrame, (shouldEncrypt_payload s md).mpr h, encTrailer]

/-- The bytes of the transformed frame: a copied payload with trailer 0 (R73). -/
theorem encFrame_passed {s : State} {md : Media} (h : ¬ FrameEncrypted s md) :
    encFrame s.cfg md (payload s) = payload s ++ [0] := by
  have : shouldEncrypt s.cfg.policy md (payload s) = false :=
    Bool.eq_false_iff.mpr (fun hc => h ((shouldEncrypt_payload s md).mp hc))
  simp [encFrame, this, encTrailer]

/-- Everything `DECRYPT` past its checks can do (R74), `tr` the trailer byte and `C` the payload bytes. -/
theorem decryptFrame_cases {s : State} {m : Nat} (hm : m + 1 = s.snap.ops.inLen.toNat) {tr : Byte}
    (ht : tr = s.mem.read (s.snap.ops.inAddr.toNat + m)) {C : Bytes}
    (hC : C = memRead s.mem s.snap.ops.inAddr.toNat m) :
    (tr = s.cfg.marker ∧ decryptFrame s = finishDecrypt (transform s.cfg C) .ok .none m s) ∨
    (tr ≠ s.cfg.marker ∧ s.cfg.mode = .legacyXor ∧ s.cfg.policy = .keyframeOnly ∧
      decryptFrame s = finishDecrypt C .ok .none m s) ∨
    (tr ≠ s.cfg.marker ∧ (s.cfg.mode = .ctr ∨ s.cfg.policy = .always) ∧
      decryptFrame s = finishDecrypt (transform s.cfg C) .failedToDecrypt .trailer 0 s) := by
  have h1 : s.snap.ops.inLen.toNat - 1 = m := by omega
  have h2 : (memRead s.mem s.snap.ops.inAddr.toNat s.snap.ops.inLen.toNat).take m = C := by
    rw [hC, memRead_take _ _ (by omega)]
  have h3 : (memRead s.mem s.snap.ops.inAddr.toNat s.snap.ops.inLen.toNat).getD m 0 = tr := by
    rw [ht, memRead_getD _ _ (by omega)]
  simp only [decryptFrame, h1, h2, h3, trailerOK, transform]
  by_cases hk : tr = s.cfg.marker
  · cases hmode : s.cfg.mode <;> simp [hk]
  · cases hmode : s.cfg.mode <;> cases hpol : s.cfg.policy <;> simp [hk]

/-- A `MemWrite` of `n` bytes leaves every byte outside them alone (R28). -/
theorem sameMemoryOutside_memWrite {s t : State} {a n : Nat} {out : Bytes} (hn : out.length = n)
    (h : t.mem = memWrite s.mem a out) : SameMemoryOutside s t a n := by
  intro x hx
  rw [h, read_memWrite_outside _ _ _ (by omega)]

/-- What `complete` leaves unchanged (R86). -/
theorem onlyCompletes_complete (s : State) (code : Code) (cause : Cause) {r : Word} {n : Nat}
    (h : r.toNat = n) : OnlyCompletes s (complete code cause r s) code cause n :=
  ⟨⟨rfl, rfl, rfl, rfl, rfl, h, rfl⟩, rfl, ⟨rfl, rfl, rfl⟩, ⟨rfl, rfl, rfl, rfl, rfl, rfl⟩, fun _ => rfl⟩

/-- What a setter leaves unchanged (R47). -/
theorem setterRan_complete (s : State) (c : Settings) :
    SetterRan s (complete .ok .none 0 { s with cfg := c }) c :=
  ⟨⟨rfl, rfl, rfl, rfl, rfl, rfl, rfl⟩, rfl, ⟨rfl, rfl, rfl⟩, ⟨rfl, rfl, rfl, rfl, rfl, rfl⟩, fun _ => rfl⟩

/-- What `raise Fatal` leaves unchanged (R87). -/
theorem onlyGoesFatal_raiseFatal (s : State) (c : FatalCause) : OnlyGoesFatal s (raiseFatal c s) c :=
  ⟨rfl, rfl, rfl, rfl, ⟨rfl, rfl, rfl⟩, ⟨rfl, rfl, rfl, rfl, rfl, rfl⟩, fun _ => rfl⟩

end Sys2Proof.Machine
end

