-- ==== Sys2Proof/Laws/Decode.lean ====
section
/-! SUPPORT. The fields of a command word: a word is its four fields, and each field is a number. -/

namespace Sys2Proof

theorem cmdOp_toNat (w : Word) : (cmdOp w).toNat = w.toNat % 2 ^ 8 := by
  simp [cmdOp, BitVec.extractLsb'_toNat]

theorem cmdImm_toNat (w : Word) : (cmdImm w).toNat = w.toNat / 2 ^ 8 % 2 ^ 8 := by
  simp [cmdImm, BitVec.extractLsb'_toNat, Nat.shiftRight_eq_div_pow]

theorem cmdRsv_toNat (w : Word) : (cmdRsv w).toNat = w.toNat / 2 ^ 17 := by
  have : w.toNat < 2 ^ 32 := w.isLt
  simp only [cmdRsv, BitVec.extractLsb'_toNat, Nat.shiftRight_eq_div_pow]
  omega

theorem cmdMedia_toNat (w : Word) : (cmdMedia w).toNat = w.toNat / 2 ^ 16 % 2 := by
  simp only [cmdMedia, BitVec.getLsbD, Nat.testBit_eq_decide_div_mod_eq]
  rcases Nat.mod_two_eq_zero_or_one (w.toNat / 2 ^ 16) with h | h <;> rw [h] <;> rfl

/-- The number of a word is its fields at their places (R40). -/
theorem toNat_fields (w : Word) : w.toNat =
    (cmdOp w).toNat + 2 ^ 8 * (cmdImm w).toNat + 2 ^ 16 * (cmdMedia w).toNat +
      2 ^ 17 * (cmdRsv w).toNat := by
  rw [cmdOp_toNat, cmdImm_toNat, cmdRsv_toNat, cmdMedia_toNat]
  omega

theorem cmdWord_toNat (op imm : Byte) (media : Bool) :
    (cmdWord op imm media).toNat = op.toNat + 2 ^ 8 * imm.toNat + 2 ^ 16 * media.toNat := by
  have h1 := op.isLt
  have h2 := imm.isLt
  show BitVec.toNat (w := 15 + 1 + 8 + 8) (0#15 ++ BitVec.ofBool media ++ imm ++ op) = _
  simp only [BitVec.toNat_append, BitVec.toNat_ofBool, BitVec.toNat_ofNat]
  rw [Nat.shiftLeft_eq, Nat.shiftLeft_eq, Nat.shiftLeft_eq, Nat.mul_comm, Nat.mul_comm _ (2 ^ 8),
    Nat.mul_comm _ (2 ^ 1)]
  rw [← Nat.two_pow_add_eq_or_of_lt h1, ← Nat.two_pow_add_eq_or_of_lt h2, Nat.zero_mod, Nat.mul_zero,
    Nat.zero_or]
  omega

/-- A word whose reserved bits are 0 is the word of its other fields. -/
theorem word_of_fields {w : Word} (h : cmdRsv w = 0) : w = cmdWord (cmdOp w) (cmdImm w) (cmdMedia w) := by
  apply BitVec.eq_of_toNat_eq
  rw [cmdWord_toNat]
  have := toNat_fields w
  rw [h] at this
  simpa using this

theorem decodeBare_eq_ok {w : Word} {i j : Instr} (h : decodeBare w i = .ok j) :
    cmdImm w = 0 ∧ cmdMedia w = false ∧ j = i := by
  unfold decodeBare at h
  split at h
  · cases h
  · next h1 =>
    split at h <;> cases h
    next h2 => exact ⟨Classical.not_not.mp h1, Bool.eq_false_iff.mpr h2, rfl⟩

theorem decodeFlag_eq_ok {w : Word} {f : Bool → Instr} {j : Instr} (h : decodeFlag w f = .ok j) :
    ∃ b, cmdImm w = flagImm b ∧ cmdMedia w = false ∧ j = f b := by
  unfold decodeFlag at h
  split at h
  · cases h
  · next h1 =>
    split at h
    · next h2 => cases h; exact ⟨false, h2, Bool.eq_false_iff.mpr h1, rfl⟩
    · split at h <;> cases h
      next h2 => exact ⟨true, h2, Bool.eq_false_iff.mpr h1, rfl⟩

theorem decodeImm_eq_ok {w : Word} {f : Byte → Instr} {j : Instr} (h : decodeImm w f = .ok j) :
    cmdMedia w = false ∧ j = f (cmdImm w) := by
  unfold decodeImm at h
  split at h <;> cases h
  next h1 => exact ⟨Bool.eq_false_iff.mpr h1, rfl⟩

theorem decodeMedia_eq_ok {w : Word} {f : Media → Instr} {j : Instr} (h : decodeMedia w f = .ok j) :
    cmdImm w = 0 ∧ j = f (Media.ofBit (cmdMedia w)) := by
  unfold decodeMedia at h
  split at h <;> cases h
  next h1 => exact ⟨Classical.not_not.mp h1, rfl⟩

end Sys2Proof
end

