-- ==== Sys2Proof/Laws/Exec.lean ====
section
/-! SUPPORT. What a command, and what a step, can do: one inversion lemma for each, which later proofs cite
instead of unfolding the meanings. -/

namespace Sys2Proof.Machine

/-- The configuration that a configuration command leaves when it completes `OK` (R48 to R55). -/
def newSettings (i : Instr) (s : State) : Settings :=
  match i with
  | .setKey => { s.cfg with key := operandD s.snap.ops, keyV := true }
  | .setSeed => { s.cfg with seed := operandD s.snap.ops, seedV := true }
  | .setMode m => { s.cfg with mode := m }
  | .setPolicy p => { s.cfg with policy := p }
  | .setForceFail f => { s.cfg with forceFail := f }
  | .setMarker v => { s.cfg with marker := v, markerV := true }
  | .setXkey v => { s.cfg with xkey := v, xkeyV := true }
  | .advSeed => { s.cfg with seed := ctrAdd s.cfg.seed (operandCount s.snap.ops) }
  | .encrypt _ => s.cfg
  | .decrypt _ => s.cfg
  | .encMaxout _ => s.cfg
  | .decMaxout _ => s.cfg

/-- A configuration command that completes `OK` in `s`: legal there, and `ADV_SEED` with a seed. -/
def setterRuns (i : Instr) (s : State) : Bool :=
  match i with
  | .setKey => true
  | .setSeed => true
  | .setMode _ => true
  | .setPolicy _ => true
  | .setForceFail _ => s.params.testHooks
  | .setMarker _ => true
  | .setXkey _ => true
  | .advSeed => s.cfg.seedV
  | .encrypt _ => false
  | .decrypt _ => false
  | .encMaxout _ => false
  | .decMaxout _ => false

/-- The ends of a command that change nothing but the status, `RESULT` and `DONE`. -/
inductive PlainEnd (i : Instr) (s : State) : Code → Cause → Word → Prop where
  | illegal (h : i.legalOn s.params.role s.params.testHooks = false) : PlainEnd i s .illegalCmd .none 0
  | encForced (md : Media) (hi : i = .encrypt md) (hr : s.params.role = .enc)
      (h : s.cfg.forceFail = true) : PlainEnd i s .forcedFailure .forced 0
  | decForced (md : Media) (hi : i = .decrypt md) (hr : s.params.role = .dec)
      (h : s.cfg.forceFail = true) : PlainEnd i s .failedToDecrypt .forced 0
  | frameNotProvisioned (md : Media) (hi : i = .encrypt md ∨ i = .decrypt md)
      (h : ¬ Provisioned s.cfg) : PlainEnd i s .notProvisioned .none 0
  | seedNotProvisioned (hi : i = .advSeed) (h : s.cfg.seedV = false) : PlainEnd i s .notProvisioned .none 0
  | encSizeError (md : Media) (hi : i = .encMaxout md) (h : s.snap.ops.inLen.toNat = 2 ^ 32 - 1) :
      PlainEnd i s .sizeError .none 0
  | decSizeError (md : Media) (hi : i = .decMaxout md) (h : s.snap.ops.inLen.toNat = 0) :
      PlainEnd i s .sizeError .none 0
  | encSize (md : Media) (hi : i = .encMaxout md) (h : s.snap.ops.inLen.toNat ≠ 2 ^ 32 - 1) :
      PlainEnd i s .ok .none (BitVec.ofNat 32 (s.snap.ops.inLen.toNat + 1))
  | decSize (md : Media) (hi : i = .decMaxout md) (h : s.snap.ops.inLen.toNat ≠ 0) :
      PlainEnd i s .ok .none (BitVec.ofNat 32 (s.snap.ops.inLen.toNat - 1))

/-- Everything a command can do. -/
inductive ExecEnd (i : Instr) (s : State) : State → Prop where
  | plain (code : Code) (cause : Cause) (r : Word) (h : PlainEnd i s code cause r) :
      ExecEnd i s (complete code cause r s)
  | setter (h : setterRuns i s = true) :
      ExecEnd i s (complete .ok .none 0 { s with cfg := newSettings i s })
  | fatal (c : FatalCause) (hc : c ≠ .none) (hi : i.isFrame = true) : ExecEnd i s (raiseFatal c s)
  | encrypted (md : Media) (hi : i = .encrypt md) (h : EncReady s) : ExecEnd i s (encryptFrame md s)
  | decrypted (md : Media) (hi : i = .decrypt md) (h : DecReady s) : ExecEnd i s (decryptFrame s)

/-- A command always answers a next state, and that state is one of the ends above (R85, R112). -/
theorem exec_end (i : Instr) (s : State) : ∃ t, exec i s = .next t ∧ ExecEnd i s t := by
  cases i with
  | setKey => exact ⟨_, rfl, .setter rfl⟩
  | setSeed => exact ⟨_, rfl, .setter rfl⟩
  | setMode m => exact ⟨_, rfl, .setter rfl⟩
  | setPolicy p => exact ⟨_, rfl, .setter rfl⟩
  | setMarker v => exact ⟨_, rfl, .setter rfl⟩
  | setXkey v => exact ⟨_, rfl, .setter rfl⟩
  | setForceFail f =>
    by_cases h : s.params.testHooks = true
    · exact ⟨_, if_pos h, .setter h⟩
    · exact ⟨_, if_neg h, .plain _ _ _ (.illegal (Bool.eq_false_iff.mpr h))⟩
  | advSeed =>
    by_cases h : s.cfg.seedV = true
    · exact ⟨_, if_pos h, .setter h⟩
    · exact ⟨_, if_neg h, .plain _ _ _ (.seedNotProvisioned rfl (Bool.eq_false_iff.mpr h))⟩
  | encrypt md =>
    rcases execEncrypt_cases md s with ⟨hr, e⟩ | ⟨hr, hf, e⟩ | ⟨-, -, -, e⟩ | ⟨-, -, -, -, e⟩ |
      ⟨-, -, -, -, -, e⟩ | ⟨-, -, -, -, -, hp, e⟩ | ⟨h, e⟩
    · exact ⟨_, e, .plain _ _ _ (.illegal (by simp [Instr.legalOn, hr]))⟩
    · exact ⟨_, e, .plain _ _ _ (.encForced md rfl hr hf)⟩
    · exact ⟨_, e, .fatal _ (by simp) rfl⟩
    · exact ⟨_, e, .fatal _ (by simp) rfl⟩
    · exact ⟨_, e, .fatal _ (by simp) rfl⟩
    · exact ⟨_, e, .plain _ _ _ (.frameNotProvisioned md (.inl rfl) hp)⟩
    · exact ⟨_, e, .encrypted md rfl h⟩
  | decrypt md =>
    rcases execDecrypt_cases md s with ⟨hr, e⟩ | ⟨hr, hf, e⟩ | ⟨-, -, -, e⟩ | ⟨-, -, -, -, e⟩ |
      ⟨-, -, -, -, -, e⟩ | ⟨-, -, -, -, -, hp, e⟩ | ⟨h, e⟩
    · exact ⟨_, e, .plain _ _ _ (.illegal (by simp [Instr.legalOn, hr]))⟩
    · exact ⟨_, e, .plain _ _ _ (.decForced md rfl hr hf)⟩
    · exact ⟨_, e, .fatal _ (by simp) rfl⟩
    · exact ⟨_, e, .fatal _ (by simp) rfl⟩
    · exact ⟨_, e, .fatal _ (by simp) rfl⟩
    · exact ⟨_, e, .plain _ _ _ (.frameNotProvisioned md (.inr rfl) hp)⟩
    · exact ⟨_, e, .decrypted md rfl h⟩
  | encMaxout md =>
    show ∃ t, execEncMaxout md s = .next t ∧ _
    unfold execEncMaxout
    cases hr : s.params.role with
    | dec => exact ⟨_, rfl, .plain _ _ _ (.illegal (by simp [Instr.legalOn, hr]))⟩
    | enc =>
      by_cases h : s.snap.ops.inLen.toNat = 2 ^ 32 - 1
      · exact ⟨_, by simp [h], .plain _ _ _ (.encSizeError md rfl h)⟩
      · refine ⟨_, ?_, .plain _ _ _ (.encSize md rfl h)⟩
        rw [if_neg (by simp), if_neg h]
  | decMaxout md =>
    show ∃ t, execDecMaxout md s = .next t ∧ _
    unfold execDecMaxout
    cases hr : s.params.role with
    | enc => exact ⟨_, rfl, .plain _ _ _ (.illegal (by simp [Instr.legalOn, hr]))⟩
    | dec =>
      by_cases h : s.snap.ops.inLen.toNat = 0
      · exact ⟨_, by simp [h], .plain _ _ _ (.decSizeError md rfl h)⟩
      · refine ⟨_, ?_, .plain _ _ _ (.decSize md rfl h)⟩
        rw [if_neg (by simp), if_neg h]

theorem execEnd_of_exec {i : Instr} {s t : State} (h : exec i s = .next t) : ExecEnd i s t := by
  obtain ⟨t', ht, he⟩ := exec_end i s
  rw [h] at ht
  cases ht
  exact he

/-- Everything a write to a register can do to a state, but for `CMD`: only `IRQ_EN`, `IRQ_PEND` (clearing)
and the staging registers change (R12). -/
inductive WriteEnd (r : Reg) (v : Word) (s : State) : State → Prop where
  | accepted (hr : r = .cmd) (hb : s.status.busy = false) (hf : s.status.fatal = false) :
      WriteEnd r v s (acceptCommand v s)
  | dropped (hr : r = .cmd) (h : s.status.busy = true ∨ s.status.fatal = true) :
      WriteEnd r v s (setPending irqOvr s)
  | enabled (hr : r = .irqEn) : WriteEnd r v s { s with irqEn := v.extractLsb' 0 4 }
  | cleared (hr : r = .irqPend) : WriteEnd r v s (clearPending v s)
  | staged (hr : r ≠ .cmd) (g : Staging) : WriteEnd r v s { s with staging := g }

theorem writeReg_end (r : Reg) (v : Word) (s : State) : WriteEnd r v s (writeReg r v s) := by
  cases r with
  | cmd =>
    cases hb : s.status.busy with
    | true =>
      have e : writeReg .cmd v s = setPending irqOvr s := by simp [writeReg, writeCmd, hb]
      exact e ▸ .dropped rfl (.inl hb)
    | false =>
      cases hf : s.status.fatal with
      | true =>
        have e : writeReg .cmd v s = setPending irqOvr s := by simp [writeReg, writeCmd, hf]
        exact e ▸ .dropped rfl (.inr hf)
      | false =>
        have e : writeReg .cmd v s = acceptCommand v s := by simp [writeReg, writeCmd, hb, hf]
        exact e ▸ .accepted rfl hb hf
  | irqEn => exact .enabled rfl
  | irqPend => exact .cleared rfl
  | data0 | data1 | data2 | data3 | inAddr | inLen | outAddr | outLen => exact .staged (by simp) _
  | status | result | cfg | seed0 | seed1 | seed2 | seed3 | stFrames | stKframes | stTotalLo
  | stTotalHi | stKfLo | stKfHi | stMax | sumCfg | sumFrames | sumKframes | sumTotalLo | sumTotalHi
  | sumKfLo | sumKfHi | sumMax | sumCount | reserved => exact .staged (by simp) s.staging

theorem regAt_eq_cmd {off : Nat} (h : regAt off = .cmd) : off = 0 := by
  unfold regAt at h
  split at h <;> first | rfl | simp at h

theorem regAt_eq_irqPend {off : Nat} (h : regAt off = .irqPend) : off = 0x14 := by
  unfold regAt at h
  split at h <;> first | rfl | simp at h

theorem supportedAccess_eq_true {base addr bytes : Nat} :
    supportedAccess base addr bytes = true ↔
      bytes = 4 ∧ base ≤ addr ∧ (addr - base) % 4 = 0 ∧ addr < base + 256 := by
  rw [show (256 : Nat) = Config.windowBytes from rfl]
  simp only [supportedAccess, Bool.and_eq_true, decide_eq_true_eq, and_assoc]

/-- Everything a step can do: the engine idles, a command ends, the host writes or reads a register, the
host writes or reads a byte of buffer memory, or the instance is reset. `q` is the rest of the queue. -/
inductive StepEnd (s : State) : State → Prop where
  | idle (q : List Input) (hq : s.inputs = .engine :: q ∨ (s.inputs = [] ∧ q = []))
      (hb : s.status.busy = false) : StepEnd s { s with inputs := q }
  | illegal (q : List Input) (hq : s.inputs = .engine :: q ∨ (s.inputs = [] ∧ q = []))
      (hb : s.status.busy = true) (e : DecodeError) (hd : decodeWord s.snap.cmd = .error e) :
      StepEnd s (complete .illegalCmd .none 0 { s with inputs := q })
  | command (q : List Input) (hq : s.inputs = .engine :: q ∨ (s.inputs = [] ∧ q = []))
      (hb : s.status.busy = true) (i : Instr) (hd : decodeWord s.snap.cmd = .ok i) (t : State)
      (h : ExecEnd i { s with inputs := q } t) : StepEnd s t
  | regWrite (q : List Input) (k : Nat) (v : Word) (hk : k < 64)
      (hq : s.inputs = .regWrite (s.params.regBase + 4 * k) 4 v :: q) (t : State)
      (h : WriteEnd (regAt (4 * k)) v { s with inputs := q } t) : StepEnd s t
  | regRead (q : List Input) (k : Nat) (hk : k < 64)
      (hq : s.inputs = .regRead (s.params.regBase + 4 * k) 4 :: q) :
      StepEnd s { s with inputs := q, lastRead := readReg (regAt (4 * k)) { s with inputs := q } }
  | bufWrite (q : List Input) (a : Word) (v : Byte) (hq : s.inputs = .bufWrite a v :: q) :
      StepEnd s { s with inputs := q, mem := s.mem.write a.toNat v }
  | bufRead (q : List Input) (a : Word) (hq : s.inputs = .bufRead a :: q) :
      StepEnd s { s with inputs := q, lastRead := (s.mem.read a.toNat).setWidth 32 }
  | reset (q : List Input) (hq : s.inputs = .reset :: q) : StepEnd s (applyReset { s with inputs := q })

theorem engineTurn_end {s t : State} {q : List Input}
    (hq : s.inputs = .engine :: q ∨ (s.inputs = [] ∧ q = []))
    (h : engineTurn { s with inputs := q } = .next t) : StepEnd s t := by
  unfold engineTurn at h
  split at h
  · next hb =>
    unfold runCommand at h
    split at h
    · next e hd => cases h; exact .illegal q hq hb e hd
    · next i hd => exact .command q hq hb i hd t (execEnd_of_exec h)
  · next hb => cases h; exact .idle q hq (Bool.eq_false_iff.mpr hb)

theorem registerAccess_next {addr bytes : Nat} {act : Reg → State → State} {s t : State}
    (h : registerAccess addr bytes act s = .next t) :
    ∃ k, k < 64 ∧ addr = s.params.regBase + 4 * k ∧ bytes = 4 ∧ t = act (regAt (4 * k)) s := by
  unfold registerAccess at h
  split at h
  · next hs =>
    obtain ⟨hb, hle, hm, hlt⟩ := supportedAccess_eq_true.mp hs
    cases h
    refine ⟨(addr - s.params.regBase) / 4, by omega, by omega, hb, ?_⟩
    rw [show 4 * ((addr - s.params.regBase) / 4) = addr - s.params.regBase by omega]
  · split at h <;> cases h

/-- An aligned 32-bit access inside the window acts on its register. -/
theorem registerAccess_supported {k : Nat} (hk : k < 64) (act : Reg → State → State) (s : State) :
    registerAccess (s.params.regBase + 4 * k) 4 act s = .next (act (regAt (4 * k)) s) := by
  have : supportedAccess s.params.regBase (s.params.regBase + 4 * k) 4 = true :=
    supportedAccess_eq_true.mpr ⟨rfl, by omega, by omega, by omega⟩
  rw [registerAccess, if_pos this, Nat.add_sub_cancel_left]

/-- A step that takes a supported host register write (R12). -/
theorem step_regWrite {s : State} {rest : List Input} {k : Nat} {v : Word} (hk : k < 64)
    (h : s.inputs = .regWrite (s.params.regBase + 4 * k) 4 v :: rest) :
    step s = .next (writeReg (regAt (4 * k)) v { s with inputs := rest }) := by
  show nextStep s = _
  unfold nextStep
  rw [h]
  exact registerAccess_supported hk (fun r t => writeReg r v t) { s with inputs := rest }

/-- A step that takes a supported host register read (R12). -/
theorem step_regRead {s : State} {rest : List Input} {k : Nat} (hk : k < 64)
    (h : s.inputs = .regRead (s.params.regBase + 4 * k) 4 :: rest) :
    step s = .next { s with inputs := rest,
                            lastRead := readReg (regAt (4 * k)) { s with inputs := rest } } := by
  show nextStep s = _
  unfold nextStep
  rw [h]
  exact registerAccess_supported hk (fun r t => { t with lastRead := readReg r t })
    { s with inputs := rest }

/-- A step that answers a next state does one of the things above. -/
theorem step_end {s t : State} (h : step s = .next t) : StepEnd s t := by
  change nextStep s = .next t at h
  unfold nextStep at h
  split at h
  · next hq =>
    refine engineTurn_end (q := []) (.inr ⟨hq, rfl⟩) ?_
    have : { s with inputs := [] } = s := by rw [← hq]
    rwa [this]
  · next e q hq =>
    cases e with
    | engine => exact engineTurn_end (.inl hq) h
    | regWrite addr bytes v =>
      simp only [takeInput, hostRegWrite] at h
      obtain ⟨k, hk, ha, hb, ht⟩ := registerAccess_next h
      subst ha hb ht
      exact .regWrite q k v hk hq _ (writeReg_end _ _ _)
    | regRead addr bytes =>
      simp only [takeInput, hostRegRead] at h
      obtain ⟨k, hk, ha, hb, ht⟩ := registerAccess_next h
      subst ha hb ht
      exact .regRead q k hk hq
    | bufWrite a v =>
      simp only [takeInput, hostBufWrite] at h
      split at h <;> cases h
      exact .bufWrite q a v hq
    | bufRead a =>
      simp only [takeInput, hostBufRead] at h
      split at h <;> cases h
      exact .bufRead q a hq
    | reset =>
      cases h
      exact .reset q hq

/-- `DECRYPT` past its checks changes the status, `RESULT`, `DONE` and the output bytes only. -/
theorem decryptFrame_shape {s : State} (h : DecReady s) :
    ∃ out code cause r, decryptFrame s = finishDecrypt out code cause r s ∧
      out.length = s.snap.ops.outLen.toNat ∧
      ((code = .ok ∧ cause = .none ∧ r = s.snap.ops.inLen.toNat - 1) ∨
        (code = .failedToDecrypt ∧ cause = .trailer ∧ r = 0 ∧
          s.mem.read (s.snap.ops.inAddr.toNat + (s.snap.ops.inLen.toNat - 1)) ≠ s.cfg.marker ∧
          ¬ (s.cfg.mode = .legacyXor ∧ s.cfg.policy = .keyframeOnly))) := by
  obtain ⟨-, -, hl, -⟩ := h
  have hm : (s.snap.ops.inLen.toNat - 1) + 1 = s.snap.ops.inLen.toNat := by omega
  have ho : s.snap.ops.inLen.toNat - 1 = s.snap.ops.outLen.toNat := by omega
  rcases decryptFrame_cases hm rfl rfl with ⟨-, e⟩ | ⟨-, -, -, e⟩ | ⟨ht, hmp, e⟩
  · exact ⟨_, _, _, _, e, by simp [ho], .inl ⟨rfl, rfl, rfl⟩⟩
  · exact ⟨_, _, _, _, e, by simp [ho], .inl ⟨rfl, rfl, rfl⟩⟩
  · refine ⟨_, _, _, _, e, by simp [ho], .inr ⟨rfl, rfl, rfl, ht, ?_⟩⟩
    rintro ⟨h1, h2⟩
    rcases hmp with h | h
    · rw [h1] at h; cases h
    · rw [h2] at h; cases h

end Sys2Proof.Machine
end

