-- ==== Sys2Proof/Laws/Hidden.lean ====
section
/-! SUPPORT. What a frame command depends on: it runs alike beside other buffer memory and other key
material, up to the bytes that it writes. -/

namespace Sys2Proof.Machine

/-- `s` with other buffer memory and other key material. -/
abbrev State.withHidden (s : State) (m : Memory) (k : Bytes16) (x : Byte) : State :=
  { s with mem := m, cfg := { s.cfg with key := k, xkey := x } }

/-- `ENCRYPT` takes its decisions without looking at buffer memory or key material (R92): beside others it
ends alike, and only a frame that passes its checks is processed with them. -/
theorem execEncrypt_withHidden (md : Media) (s : State) (m : Memory) (k : Bytes16) (x : Byte) :
    (EncReady s ∧ execEncrypt md s = .next (encryptFrame md s) ∧
      execEncrypt md (s.withHidden m k x) = .next (encryptFrame md (s.withHidden m k x))) ∨
    ∃ t, execEncrypt md s = .next t ∧ execEncrypt md (s.withHidden m k x) = .next (t.withHidden m k x) ∧
      t.mem = s.mem ∧ t.cfg = s.cfg := by
  have hp : provisioned (s.withHidden m k x).cfg = provisioned s.cfg := rfl
  unfold execEncrypt
  dsimp only [State.withHidden] at hp ⊢
  by_cases hr : s.params.role = .enc
  · have hr' := not_not_intro hr
    rw [if_neg hr', if_neg hr']
    by_cases hf : s.cfg.forceFail = true
    · exact .inr ⟨_, if_pos hf, if_pos hf, rfl, rfl⟩
    · rw [if_neg hf, if_neg hf, hp]
      cases hc : encContract s.snap.ops with
      | some c => exact .inr ⟨_, rfl, rfl, rfl, rfl⟩
      | none =>
        dsimp only
        by_cases hv : provisioned s.cfg = true
        · obtain ⟨hl, hb, ho⟩ := encContract_eq_none hc
          exact .inl ⟨⟨hr, Bool.eq_false_iff.mpr hf, hl, hb, ho, (provisioned_eq_true _).mp hv⟩,
            if_pos hv, if_pos hv⟩
        · exact .inr ⟨_, if_neg hv, if_neg hv, rfl, rfl⟩
  · exact .inr ⟨_, if_pos hr, if_pos hr, rfl, rfl⟩

/-- `DECRYPT` takes its decisions, up to the trailer check, without looking at buffer memory or key
material (R92). -/
theorem execDecrypt_withHidden (md : Media) (s : State) (m : Memory) (k : Bytes16) (x : Byte) :
    (DecReady s ∧ execDecrypt md s = .next (decryptFrame s) ∧
      execDecrypt md (s.withHidden m k x) = .next (decryptFrame (s.withHidden m k x))) ∨
    ∃ t, execDecrypt md s = .next t ∧ execDecrypt md (s.withHidden m k x) = .next (t.withHidden m k x) ∧
      t.mem = s.mem ∧ t.cfg = s.cfg := by
  have hp : provisioned (s.withHidden m k x).cfg = provisioned s.cfg := rfl
  unfold execDecrypt
  dsimp only [State.withHidden] at hp ⊢
  by_cases hr : s.params.role = .dec
  · have hr' := not_not_intro hr
    rw [if_neg hr', if_neg hr']
    by_cases hf : s.cfg.forceFail = true
    · exact .inr ⟨_, if_pos hf, if_pos hf, rfl, rfl⟩
    · rw [if_neg hf, if_neg hf, hp]
      cases hc : decContract s.snap.ops with
      | some c => exact .inr ⟨_, rfl, rfl, rfl, rfl⟩
      | none =>
        dsimp only
        by_cases hv : provisioned s.cfg = true
        · obtain ⟨hl, hb, ho⟩ := decContract_eq_none hc
          exact .inl ⟨⟨hr, Bool.eq_false_iff.mpr hf, hl, hb, ho, (provisioned_eq_true _).mp hv⟩,
            if_pos hv, if_pos hv⟩
        · exact .inr ⟨_, if_neg hv, if_neg hv, rfl, rfl⟩
  · exact .inr ⟨_, if_pos hr, if_pos hr, rfl, rfl⟩

/-- The payload depends on the input range only (R28, R37). -/
theorem payload_withHidden {s : State} {m : Memory} {k : Bytes16} {x : Byte}
    (hm : ∀ j < s.snap.ops.inLen.toNat,
      m.read (s.snap.ops.inAddr.toNat + j) = s.mem.read (s.snap.ops.inAddr.toNat + j)) :
    payload (s.withHidden m k x) = payload s := memRead_congr hm

/-- What `ENCRYPT` does beside other memory that holds the same payload: the same, but for the bytes it
writes. -/
theorem encryptFrame_withHidden {md : Media} {s : State} {m : Memory} {k : Bytes16} {x : Byte}
    (hp : payload (s.withHidden m k x) = payload s) :
    encryptFrame md (s.withHidden m k x) = (encryptFrame md s).withHidden
      (memWrite m s.snap.ops.outAddr.toNat (encFrame (s.withHidden m k x).cfg md (payload s))) k x := by
  rw [encryptFrame_eq, encryptFrame_eq, hp]
  have e1 (q : Memory) : frameStats md (payload s) { s with mem := q } =
      { frameStats md (payload s) s with mem := q } :=
    (frameStats_with md (payload s) s q s.cfg.key s.cfg.xkey).trans
      (by rw [frameStats_frame])
  have e2 := frameStats_with md (payload s) s (memWrite m s.snap.ops.outAddr.toNat
    (encFrame (s.withHidden m k x).cfg md (payload s))) k x
  dsimp only [State.withHidden] at e2 ⊢
  rw [e1, e2, frameStats_frame]
  rfl

/-- What `DECRYPT` does beside other memory that holds the same input: the same, but for the bytes it
writes. -/
theorem decryptFrame_withHidden {s : State} {m : Memory} {k : Bytes16} {x : Byte}
    (hp : payload (s.withHidden m k x) = payload s) : ∃ out out' : Bytes, out.length = out'.length ∧
      out.length = s.snap.ops.inLen.toNat - 1 ∧ (k = s.cfg.key → x = s.cfg.xkey → out = out') ∧
      (decryptFrame s).mem = memWrite s.mem s.snap.ops.outAddr.toNat out ∧
      decryptFrame (s.withHidden m k x) =
        (decryptFrame s).withHidden (memWrite m s.snap.ops.outAddr.toNat out') k x := by
  have hX : memRead m s.snap.ops.inAddr.toNat s.snap.ops.inLen.toNat = payload s := hp
  have hl : ((payload s).take (s.snap.ops.inLen.toNat - 1)).length = s.snap.ops.inLen.toNat - 1 := by
    simp
  unfold decryptFrame
  dsimp only [State.withHidden]
  rw [hX, show memRead s.mem s.snap.ops.inAddr.toNat s.snap.ops.inLen.toNat = payload s from rfl]
  split
  · rw [show trailerOK { s.cfg with key := k, xkey := x } = trailerOK s.cfg from rfl]
    split <;> exact ⟨_, _, by simp, by simp, by intro h h'; rw [h], rfl, rfl⟩
  · rw [show trailerOK { s.cfg with key := k, xkey := x } = trailerOK s.cfg from rfl]
    split
    · exact ⟨_, _, by simp, by simp, by intro h h'; rw [h'], rfl, rfl⟩
    · split
      · exact ⟨_, _, rfl, by simp, fun _ _ => rfl, rfl, rfl⟩
      · exact ⟨_, _, by simp, by simp, by intro h h'; rw [h'], rfl, rfl⟩

/-- `ENC_MAXOUT` is a function of the role and of the size operand (R77). -/
theorem execEncMaxout_pure (md : Media) (role : Role) (len : Word) : ∃ code cause r,
    ∀ s : State, s.params.role = role → s.snap.ops.inLen = len →
      execEncMaxout md s = .next (complete code cause r s) := by
  by_cases hr : role ≠ .enc
  · refine ⟨.illegalCmd, .none, 0, fun s h _ => ?_⟩
    subst h
    rw [execEncMaxout, if_pos hr, completeIllegal_eq]
  · by_cases hl : len.toNat = 2 ^ 32 - 1
    · refine ⟨.sizeError, .none, 0, fun s h h' => ?_⟩
      subst h h'
      rw [execEncMaxout, if_neg hr, if_pos hl]
    · refine ⟨.ok, .none, BitVec.ofNat 32 (len.toNat + 1), fun s h h' => ?_⟩
      subst h h'
      rw [execEncMaxout, if_neg hr, if_neg hl]

/-- `DEC_MAXOUT` is a function of the role and of the size operand (R78). -/
theorem execDecMaxout_pure (md : Media) (role : Role) (len : Word) : ∃ code cause r,
    ∀ s : State, s.params.role = role → s.snap.ops.inLen = len →
      execDecMaxout md s = .next (complete code cause r s) := by
  by_cases hr : role ≠ .dec
  · refine ⟨.illegalCmd, .none, 0, fun s h _ => ?_⟩
    subst h
    rw [execDecMaxout, if_pos hr, completeIllegal_eq]
  · by_cases hl : len.toNat = 0
    · refine ⟨.sizeError, .none, 0, fun s h h' => ?_⟩
      subst h h'
      rw [execDecMaxout, if_neg hr, if_pos hl]
    · refine ⟨.ok, .none, BitVec.ofNat 32 (len.toNat - 1), fun s h h' => ?_⟩
      subst h h'
      rw [execDecMaxout, if_neg hr, if_neg hl]

end Sys2Proof.Machine
end

