-- ==== Sys2Proof/Laws/PerInstr.lean ====
section
/-! SUPPORT. Statements about every command as syntax, one lemma per constructor. -/

namespace Sys2Proof.Laws.TableRows

/-- The word of a command selects the command's row of the table of R42. -/
def Statement (i : Instr) : Prop := Machine.Selects (encode i) (Machine.rowOf i)

theorem setKey : Statement .setKey := by unfold Statement; decide
theorem setSeed : Statement .setSeed := by unfold Statement; decide
theorem setMode (m : Mode) : Statement (.setMode m) := by cases m <;> (unfold Statement; decide)
theorem setPolicy (p : Policy) : Statement (.setPolicy p) := by
  cases p <;> (unfold Statement; decide)
theorem setForceFail (f : Bool) : Statement (.setForceFail f) := by
  cases f <;> (unfold Statement; decide)
theorem setMarker (v : Byte) : Statement (.setMarker v) := by
  unfold Statement; revert v; decide
theorem setXkey (v : Byte) : Statement (.setXkey v) := by
  unfold Statement; revert v; decide
theorem advSeed : Statement .advSeed := by unfold Statement; decide
theorem encrypt (md : Media) : Statement (.encrypt md) := by
  cases md <;> (unfold Statement; decide)
theorem decrypt (md : Media) : Statement (.decrypt md) := by
  cases md <;> (unfold Statement; decide)
theorem encMaxout (md : Media) : Statement (.encMaxout md) := by
  cases md <;> (unfold Statement; decide)
theorem decMaxout (md : Media) : Statement (.decMaxout md) := by
  cases md <;> (unfold Statement; decide)

end Sys2Proof.Laws.TableRows
end

