-- ==== Sys2Proof/Tests/Slice0.lean ====
section
/-! SUPPORT. Tests. The expected values are those of spec/95_test_vectors.md (named in each docstring) or
are worked out by hand from the rules; none is the model's own answer. The witnesses at the end show, for
every statement that has hypotheses, a state and operands that meet them, clause by clause. -/

namespace Sys2Proof.Tests

open Sys2Proof.Machine

/-! ## Small states -/

/-- The default provisioning of spec/95_test_vectors.md. -/
def provisionedSettings : Settings :=
  { Settings.reset with
    key := 0xAAAAAAAAAAAAAAAAAAAAAAAAAAAAAAAA, seed := 0, marker := 0xFF, xkey := 0x5A
    keyV := true, seedV := true, markerV := true, xkeyV := true }

/-- An instance after reset. -/
def fresh (role : Role) (hooks : Bool) : State :=
  State.resetOf { role := role, testHooks := hooks, regBase := 0x40000000 } [] [] 0 0

/-- A provisioned instance in a mode, with a policy. -/
def ready (role : Role) (m : Mode) (p : Policy) : State :=
  { fresh role true with cfg := { provisionedSettings with mode := m, policy := p } }

/-- The buffers of a frame command. -/
def bufs (inAddr inLen outAddr outLen : Word) : Staging :=
  { Staging.zero with inAddr := inAddr, inLen := inLen, outAddr := outAddr, outLen := outLen }

/-- The command word `w` is in flight, and the engine's turn is next. -/
def inFlight (w : Word) (o : Staging) (m : Memory) (s : State) : State :=
  { s with snap := { cmd := w, ops := o }, mem := m, inputs := [.engine]
           status := { s.status with busy := true } }

/-- The host's next action. -/
def host (e : Input) (s : State) : State := { s with inputs := [e] }

/-- The state after one step, if there is one. -/
def after (s : State) : Option State :=
  match step s with
  | .next t => some t
  | .fault _ => none
  | .refused _ => none

/-- The refusal, or the fault, that the step answers. -/
def refusal (s : State) : Option Refusal :=
  match step s with
  | .next _ => none
  | .fault _ => none
  | .refused r => some r
def fault (s : State) : Option Fault :=
  match step s with
  | .next _ => none
  | .fault r => some r
  | .refused _ => none

/-- `STATUS` and `RESULT` after one step. -/
def outcome (s : State) : Option (Word × Word) :=
  (after s).map (fun t => (readReg .status t, readReg .result t))

def frame10 : Memory := memWrite [] 0x1000 [0x10, 0x20, 0x30]
def frame11 : Memory := memWrite [] 0x1000 [0x11, 0x20, 0x30]
def normal : Staging := bufs 0x1000 3 0x2000 4
def normalDec : Staging := bufs 0x1000 4 0x2000 3

/-! ## Well-formedness: what an instance refuses (R44) -/

theorem test_legal_encrypt_not_on_dec (md : Media) (h : Bool) : (Instr.encrypt md).legalOn .dec h = false := by
  cases md <;> cases h <;> decide
theorem test_legal_decrypt_not_on_enc (md : Media) (h : Bool) : (Instr.decrypt md).legalOn .enc h = false := by
  cases md <;> cases h <;> decide
theorem test_legal_encMaxout_not_on_dec : (Instr.encMaxout .audio).legalOn .dec true = false := by decide
theorem test_legal_decMaxout_not_on_enc : (Instr.decMaxout .video).legalOn .enc true = false := by decide
theorem test_legal_setForceFail_needs_hooks : (Instr.setForceFail true).legalOn .enc false = false := by decide
theorem test_legal_setKey_everywhere :
    Instr.setKey.legalOn .enc false = true ∧ Instr.setKey.legalOn .dec false = true := by decide

/-! ## Decoding: words written out from the table of R42 -/

theorem test_decode_config :
    decodeWord 0x00000001 = .ok .setKey ∧ decodeWord 0x00000002 = .ok .setSeed ∧
      decodeWord 0x00000003 = .ok (.setMode .legacyXor) ∧ decodeWord 0x00000103 = .ok (.setMode .ctr) ∧
      decodeWord 0x00000004 = .ok (.setPolicy .always) ∧
      decodeWord 0x00000104 = .ok (.setPolicy .keyframeOnly) ∧
      decodeWord 0x00000005 = .ok (.setForceFail false) ∧
      decodeWord 0x00000105 = .ok (.setForceFail true) ∧ decodeWord 0x0000FF06 = .ok (.setMarker 0xFF) ∧
      decodeWord 0x00005A07 = .ok (.setXkey 0x5A) ∧ decodeWord 0x00000008 = .ok .advSeed := by decide

theorem test_decode_frames :
    decodeWord 0x00000010 = .ok (.encrypt .audio) ∧ decodeWord 0x00010010 = .ok (.encrypt .video) ∧
      decodeWord 0x00000011 = .ok (.decrypt .audio) ∧ decodeWord 0x00010011 = .ok (.decrypt .video) := by
  decide

theorem test_decode_sizes :
    decodeWord 0x00000012 = .ok (.encMaxout .audio) ∧ decodeWord 0x00010012 = .ok (.encMaxout .video) ∧
      decodeWord 0x00000013 = .ok (.decMaxout .audio) ∧ decodeWord 0x00010013 = .ok (.decMaxout .video) := by
  decide

/-- CF5, CF13, CF14, EN21, EN22, RG12, and the gaps of the opcode map (R44). -/
theorem test_decode_rejects :
    decodeWord 0x00000203 = .error .immNotFlag ∧ decodeWord 0x00010001 = .error .mediaNotZero ∧
      decodeWord 0x00000101 = .error .immNotZero ∧ decodeWord 0x00030010 = .error .reservedBits ∧
      decodeWord 0x00010110 = .error .immNotZero ∧ decodeWord 0x00000000 = .error .unknownOpcode ∧
      decodeWord 0x00000009 = .error .unknownOpcode ∧ decodeWord 0x00000014 = .error .unknownOpcode ∧
      decodeWord 0x0001FF06 = .error .mediaNotZero ∧ decodeWord 0x80000008 = .error .reservedBits := by
  decide

theorem test_decodeTableWord :
    decodeTableWord 32 0x00010010 = some (.encrypt .video) ∧ decodeTableWord 8 0x01 = some .setKey ∧
      decodeTableWord 32 0 = none := by decide

theorem test_encode :
    encode .setKey = 0x00000001 ∧ encode (.setPolicy .keyframeOnly) = 0x00000104 ∧
      encode (.setMarker 0xA5) = 0x0000A506 ∧ encode (.decMaxout .video) = 0x00010013 := by decide

/-! ## The cipher engine -/

/-- CE1 (FIPS-197 C.1) and CE4. -/
theorem test_aes_blocks :
    blockCipher 0x000102030405060708090a0b0c0d0e0f 0x00112233445566778899aabbccddeeff =
        0x69c4e0d86a7b0430d8cdb78070b4c55a ∧
      blockCipher 0xaaaaaaaaaaaaaaaaaaaaaaaaaaaaaaaa 1 = 0xb218405fb914a29fdca518a7eeeaff1a := by
  decide +kernel

/-- CE9: the counter wraps, and byte 16 comes from the next block. -/
theorem test_keystream_wrap :
    keystream blockCipher 0xaaaaaaaaaaaaaaaaaaaaaaaaaaaaaaaa 0xffffffffffffffffffffffffffffffff 17 =
      [0xd4, 0xa7, 0xa5, 0x03, 0x6a, 0x8a, 0x8f, 0x11, 0xc4, 0x1b, 0x2a, 0x3e, 0x30, 0x7e, 0xd2, 0x87,
        0xba] := by decide +kernel

/-- CN3 and CN6: the carry out of the low 32 bits. -/
theorem test_ctrAdd :
    ctrAdd 0x000000000000000000000000ffffffff 1 = 0x00000000000000000000000100000000 ∧
      ctrAdd 0x000000000000000000000000000000fe 0xFFFFFFFF = 0x000000000000000000000001000000fd := by
  decide

/-- LX3. -/
theorem test_legacyXor : legacyXor 0xFF [0x00, 0x01, 0xfe, 0xff] = [0xff, 0xfe, 0x01, 0x00] := by decide

/-- KF1, KF2, KF6, KF7. -/
theorem test_isKeyFrame :
    isKeyFrame .video [0x10, 0x20, 0x30] = true ∧ isKeyFrame .video [0x11, 0x20, 0x30] = false ∧
      isKeyFrame .video [] = false ∧ isKeyFrame .audio [0x10, 0x20, 0x30] = false := by decide

/-! ## Commands, one step each -/

/-- CF1: the staged bytes, and `CFG`. -/
theorem test_setKey : (after (inFlight 0x00000001
      { Staging.zero with data0 := 0x03020100, data3 := 0x0F0E0D0C } [] (fresh .enc true))).map
      (fun t => (t.cfg.key, readReg .cfg t)) =
    some (0x0001020300000000000000000c0d0e0f, 0x00010011) := by decide

/-- CF2: the seed reads back as it was staged. -/
theorem test_setSeed : (after (inFlight 0x00000002
      { Staging.zero with data0 := 0x03020100, data1 := 0x07060504, data2 := 0x0B0A0908,
                          data3 := 0x0F0E0D0C } [] (fresh .dec true))).map
      (fun t => (t.cfg.seed, readReg .seed1 t, readReg .seed3 t)) =
    some (0x000102030405060708090a0b0c0d0e0f, 0x07060504, 0x0F0E0D0C) := by decide

/-- CF3. -/
theorem test_setMode : (after (inFlight 0x00000003 Staging.zero [] (fresh .enc true))).map (readReg .cfg) =
    some 0x00000010 := by decide

/-- CF6. -/
theorem test_setPolicy : (after (inFlight 0x00000104 Staging.zero [] (fresh .enc true))).map (readReg .cfg) =
    some 0x00000013 := by decide

/-- CF8: the flag is cleared while it is set. -/
theorem test_setForceFail_clears : (after (inFlight 0x00000005 Staging.zero []
      { fresh .enc true with cfg := { Settings.reset with forceFail := true } })).map
      (fun t => (readReg .cfg t, readReg .status t)) = some (0x00000011, 0) := by decide

/-- CF9. -/
theorem test_setForceFail_without_hooks : (after (inFlight 0x00000105 Staging.zero [] (fresh .enc false))).map
      (fun t => (t.cfg.forceFail, readReg .status t)) = some (false, 0x00000030) := by decide

/-- CF10. -/
theorem test_setMarker : (after (inFlight 0x0000FF06 Staging.zero [] (fresh .enc true))).map (readReg .cfg) =
    some 0x0004FF11 := by decide

/-- CF12. -/
theorem test_setXkey : (after (inFlight 0x00005A07 Staging.zero [] (fresh .enc true))).map
      (fun t => (t.cfg.xkey, readReg .cfg t)) = some (0x5A, 0x00080011) := by decide

/-- CF16. -/
theorem test_advSeed_carries : (after (inFlight 0x00000008 { Staging.zero with data0 := 1 } []
      { fresh .enc true with cfg := { Settings.reset with seed := 0xffffffff, seedV := true } })).map
      (fun t => (readReg .seed2 t, readReg .seed3 t)) = some (0x01000000, 0) := by decide

/-- CF15. -/
theorem test_advSeed_needs_seed :
    outcome (inFlight 0x00000008 { Staging.zero with data0 := 1 } [] (fresh .enc true)) =
      some (0x00000050, 0) := by decide

/-- EN1, on AES-128: the ciphertext, the trailer, and the frame counts; EN4: a passed-through frame. -/
theorem test_encrypt_ctr :
    (after (inFlight 0x00010010 normal frame10 (ready .enc .ctr .always))).map
      (fun t => (memRead t.mem 0x2000 4, readReg .result t, readReg .stFrames t, readReg .stKframes t)) =
    some ([0xaa, 0xcb, 0xf6, 0xff], 4, 1, 1) ∧
    (after (inFlight 0x00010010 normal frame11 (ready .enc .ctr .keyframeOnly))).map
      (fun t => (memRead t.mem 0x2000 4, readReg .stFrames t, readReg .stKframes t)) =
    some ([0x11, 0x20, 0x30, 0x00], 1, 0) := by decide +kernel

/-- DE5, on AES-128: the output is written although the trailer check fails. -/
theorem test_decrypt_ctr_mismatch :
    (after (inFlight 0x00010011 normalDec (memWrite [] 0x1000 [0x11, 0x20, 0x30, 0x00])
      (ready .dec .ctr .keyframeOnly))).map
      (fun t => (memRead t.mem 0x2000 3, readReg .status t, readReg .result t)) =
    some ([0xab, 0xcb, 0xf6], 0x00000220, 0) := by decide +kernel

/-- DE11: the pass-through of the legacy mode. -/
theorem test_decrypt_legacy_passes :
    (after (inFlight 0x00010011 normalDec (memWrite [] 0x1000 [0x4a, 0x7a, 0x6a, 0x37])
      (ready .dec .legacyXor .keyframeOnly))).map
      (fun t => (memRead t.mem 0x2000 3, readReg .status t, readReg .result t)) =
    some ([0x4a, 0x7a, 0x6a], 0, 3) := by decide

/-- SZ3 and SZ4. -/
theorem test_encMaxout :
    outcome (inFlight 0x00000012 (bufs 0 0xFFFFFFFE 0 0) [] (fresh .enc true)) = some (0, 0xFFFFFFFF) ∧
      outcome (inFlight 0x00000012 (bufs 0 0xFFFFFFFF 0 0) [] (fresh .enc true)) =
        some (0x00000040, 0) := by decide

/-- SZ8 and SZ5. -/
theorem test_decMaxout :
    outcome (inFlight 0x00000013 (bufs 0 0xFFFFFFFF 0 0) [] (fresh .dec true)) = some (0, 0xFFFFFFFE) ∧
      outcome (inFlight 0x00000013 (bufs 0 0 0 0) [] (fresh .dec true)) = some (0x00000040, 0) := by
  decide

/-- EN10, EN11, EN13, EN14, EN17: the order of the checks. -/
theorem test_encrypt_checks :
    outcome (inFlight 0x00010010 (bufs 0x1000 3 0x2000 7) frame10
        { ready .enc .ctr .always with cfg := { provisionedSettings with forceFail := true } }) =
        some (0x00000110, 0) ∧
      outcome (inFlight 0x00010010 (bufs 0x1000 3 0x2000 3) frame10 (ready .enc .ctr .always)) =
        some (0x00001002, 0) ∧
      outcome (inFlight 0x00010010 (bufs 0xFFFFFFFE 3 0x2000 4) [] (ready .enc .ctr .always)) =
        some (0x00003002, 0) ∧
      outcome (inFlight 0x00010010 (bufs 0x100 3 0x102 4) [] (ready .enc .ctr .always)) =
        some (0x00004002, 0) ∧
      outcome (inFlight 0x00010010 normal frame10 (fresh .enc true)) = some (0x00000050, 0) := by decide

/-- CF5, EN20, RG12: illegal words. -/
theorem test_illegal_words :
    outcome (inFlight 0x00000203 Staging.zero [] (fresh .enc true)) = some (0x00000030, 0) ∧
      outcome (inFlight 0x00010010 normal frame10 (ready .dec .ctr .always)) = some (0x00000030, 0) ∧
      outcome (inFlight 0x00000000 Staging.zero [] (fresh .enc true)) = some (0x00000030, 0) := by decide

/-- TM5: the 300th video frame, here a non-key frame, empties the accumulator and sets both bits. -/
theorem test_summary_at_300 :
    (after (inFlight 0x00010010 normal frame11
      { ready .enc .legacyXor .keyframeOnly with stats := { Stats.zero with frames := 299, kframes := 7 } })).map
      (fun t => (readReg .sumFrames t, readReg .sumKframes t, readReg .sumCfg t, readReg .sumCount t,
        readReg .stFrames t, readReg .irqPend t)) = some (300, 7, 2, 1, 0, 3) := by decide

/-! ## The host interface -/

/-- RG1 and RG2. -/
theorem test_reset :
    readReg .cfg (fresh .enc true) = 0x00000011 ∧ readReg .cfg (fresh .dec true) = 0x00000019 ∧
      readReg .status State.reset = 0 ∧ readReg .cfg State.reset = 0x00000011 ∧
      irq State.reset = false ∧ State.reset.mem.wf := by decide

/-- RG4: a second word is dropped while the first is in flight. -/
theorem test_cmd_dropped_while_busy :
    (after (host (.regWrite 0x40000000 4 0x00000006)
      (inFlight 0x0000FF06 Staging.zero [] (fresh .enc true)))).map
      (fun t => (t.snap.cmd, readReg .irqPend t)) = some (0x0000FF06, 8) := by decide

/-- RG5: the snapshot is taken at acceptance. -/
theorem test_cmd_accepted :
    (after (host (.regWrite 0x40000000 4 0x00000001)
      { fresh .enc true with staging := { Staging.zero with data0 := 0x11111111 } })).map
      (fun t => (t.snap.cmd, t.snap.ops.data0, readReg .status t)) = some (1, 0x11111111, 1) := by decide

/-- RG6. -/
theorem test_irqPend_write_one_clears :
    (after (host (.regWrite 0x40000014 4 0x9) { fresh .enc true with irqPend := 0xB })).map (readReg .irqPend) =
      some 2 := by decide

/-- RG7. -/
theorem test_irq_enabled_late :
    (after (host (.regWrite 0x40000010 4 1) { fresh .enc true with irqPend := 1 })).map irq = some true := by
  decide

/-- RG10 and RG11. -/
theorem test_readonly_and_reserved :
    (after (host (.regWrite 0x4000000C 4 0xFFFFFFFF) (fresh .enc true))).map (readReg .cfg) =
        some 0x00000011 ∧
      (after (host (.regRead 0x40000088 4) { fresh .enc true with lastRead := 9 })).map State.lastRead =
        some 0 := by decide

/-- R13: an unaligned access and a byte access are refused, and so is an access outside the window. -/
theorem test_unsupported_access :
    refusal (host (.regRead 0x40000002 4) (fresh .enc true)) = some .unsupportedRegisterAccess ∧
      refusal (host (.regWrite 0x40000010 1 1) (fresh .enc true)) = some .unsupportedRegisterAccess ∧
      refusal (host (.regRead 0x40000100 4) (fresh .enc true)) = some .outsideRegisterWindow := by decide

/-- R39: the first byte of the input range, and the byte behind it. -/
theorem test_host_buffer_race :
    fault (host (.bufWrite 0x1000 1) (inFlight 0x00010010 normal frame10 (ready .enc .ctr .always))) =
        some .hostBufferRace ∧
      (after (host (.bufWrite 0x1003 1)
        (inFlight 0x00010010 normal frame10 (ready .enc .ctr .always)))).isSome = true := by decide

/-- RG8 and RG9: a dropped word in the fatal state, and reset as the way out. -/
theorem test_fatal_state :
    (after (host (.regWrite 0x40000000 4 0x0000AA06)
      (raiseFatal .encSize (ready .enc .ctr .always)))).map
        (fun t => (t.cfg.marker, readReg .status t, readReg .irqPend t)) = some (0xFF, 0x00001002, 0xC) ∧
      (after (host .reset (raiseFatal .encSize (ready .enc .ctr .always)))).map
        (fun t => (readReg .cfg t, readReg .status t)) = some (0x00000011, 0) := by decide

/-! ## Memory -/

theorem test_memory_canonical :
    frame10.wf ∧ Memory.write (Memory.write [] 7 0x55) 7 0 = [] ∧
      Memory.write (Memory.write [] 9 1) 4 2 = [(4, 2), (9, 1)] := by decide

/-! ## Witnesses: the hypotheses of the statements can be met -/

/-- A key frame ready to be encrypted, and a frame ready to be decrypted. -/
def encState (m : Mode) (p : Policy) : State := inFlight 0x00010010 normal frame10 (ready .enc m p)
def decState (m : Mode) (p : Policy) (X : Bytes) : State :=
  inFlight 0x00010011 normalDec (memWrite [] 0x1000 X) (ready .dec m p)
def withMarker (v : Byte) (s : State) : State := { s with cfg := { s.cfg with marker := v } }
def fatalState : State := raiseFatal .range (ready .enc .ctr .always)

theorem encReady_of {o : Staging} (w : Word) (mem : Memory) (m : Mode) (p : Policy)
    (h : o.outLen.toNat = o.inLen.toNat + 1 ∧ RangesFit o ∧ ¬ BuffersOverlap o) :
    EncReady (inFlight w o mem (ready .enc m p)) :=
  ⟨rfl, rfl, h.1, h.2.1, h.2.2, rfl, fun _ => ⟨rfl, rfl⟩, fun _ => rfl⟩

theorem decReady_of {o : Staging} (w : Word) (mem : Memory) (m : Mode) (p : Policy)
    (h : o.outLen.toNat + 1 = o.inLen.toNat ∧ RangesFit o ∧ ¬ BuffersOverlap o) :
    DecReady (inFlight w o mem (ready .dec m p)) :=
  ⟨rfl, rfl, h.1, h.2.1, h.2.2, rfl, fun _ => ⟨rfl, rfl⟩, fun _ => rfl⟩

theorem encState_ready (m : Mode) (p : Policy) : EncReady (encState m p) :=
  encReady_of _ _ _ _ (by decide)

theorem decState_ready (m : Mode) (p : Policy) (X : Bytes) : DecReady (decState m p X) :=
  decReady_of _ _ _ _ (by decide)

theorem test_witness_StepRunsDecodedCommand :
    ((encState .ctr .always).inputs = .engine :: [] ∧ (encState .ctr .always).status.busy = true ∧
      decodeWord (encState .ctr .always).snap.cmd = .ok (.encrypt .video)) ∧
    (State.reset.inputs = [] ∧ State.reset.status.busy = false) := by decide

theorem test_witness_FetchedWordRunsNext : decodeTableWord 32 0x0000A506 = some (.setMarker 0xA5) := by decide

theorem test_witness_EncodeOfDecode : decodeWord 0x00000104 = .ok (.setPolicy .keyframeOnly) := by decide

theorem test_witness_WordSelectsOneRow :
    (decodeWord 0x00010013 = .ok (.decMaxout .video) ∧ Selects 0x00010013 ⟨0xFFFEFFFF, 0x00000013⟩) ∧
      ∀ r ∈ commandTable, ¬ Selects 0x00000014 r := by decide

/-- One word for each clause of R44, and a legal one. -/
theorem test_witness_IllegalWord :
    IllegalWord .enc true 0x00000000 ∧ IllegalWord .enc true 0x00020001 ∧
      IllegalWord .enc true 0x00000101 ∧ IllegalWord .enc true 0x00000205 ∧
      IllegalWord .enc true 0x00010008 ∧ IllegalWord .dec true 0x00000012 ∧
      IllegalWord .enc true 0x00000011 ∧ IllegalWord .enc false 0x00000005 ∧
      ¬ IllegalWord .enc true 0x00010010 := by
  refine ⟨?_, ?_, ?_, ?_, ?_, ?_, ?_, ?_, ?_⟩ <;> simp only [IllegalWord] <;> decide

theorem test_witness_IllegalWordsComplete :
    (encState .ctr .always).status.busy = true ∧ (encState .ctr .always).inputs = .engine :: [] := by decide

theorem test_witness_ResetValues :
    State.reset = State.resetOf { role := .enc, testHooks := true, regBase := 0 } [] [] 0 0 := by decide

theorem test_witness_ResetInput :
    (host .reset (encState .ctr .always)).inputs = .reset :: [] ∧
      frameInFlight (host .reset (encState .ctr .always)) = true ∧
      frameInFlight (host .reset fatalState) = false := by decide

theorem test_witness_InvariantsHoldAtReset : Memory.wf frame10 := by decide

theorem test_witness_StepKeepsMemoryCanonical :
    MemoryInv (encState .legacyXor .always) ∧ (after (encState .legacyXor .always)).isSome = true := by decide

theorem test_witness_StepKeepsTelemetryBounds :
    TelemetryInv (ready .enc .ctr .always) ∧ (after (ready .enc .ctr .always)).isSome = true ∧
      StatsWithin 299 { totalUs := 299 * 0xFFFFFFFF, frames := 299, kframes := 299,
                        kfUs := 299 * 0xFFFFFFFF, maxUs := 0xFFFFFFFF } := by decide

/-- The three states of R66. -/
theorem test_witness_StepKeepsStatusLegal :
    StatusInv State.reset ∧ StatusInv (encState .ctr .always) ∧ StatusInv fatalState ∧
      (after fatalState).isSome = true := by decide

theorem test_witness_StepKeepsDecoderTelemetry :
    DecoderInv (ready .dec .ctr .always) ∧ (ready .dec .ctr .always).params.role = .dec ∧
      (after (decState .legacyXor .always [1, 2, 3, 0xFF])).isSome = true := by decide

theorem test_witness_StepKeepsProvisioning :
    ProvisioningInv (fresh .enc false) ∧ (after (fresh .enc false)).isSome = true := by decide

/-- A step that changes each of the four fields. -/
theorem test_witness_ConfigChangesOnlyByCommands :
    (after (inFlight 0x00000003 Staging.zero [] (fresh .enc true))).map (fun t => t.cfg.mode) =
        some .legacyXor ∧
      (after (inFlight 0x00000104 Staging.zero [] (fresh .enc true))).map (fun t => t.cfg.policy) =
        some .keyframeOnly ∧
      (after (inFlight 0x00000105 Staging.zero [] (fresh .enc true))).map (fun t => t.cfg.forceFail) =
        some true ∧
      (inFlight 0x00000105 Staging.zero [] (fresh .enc true)).inputs.head? ≠ some .reset := by decide

theorem test_witness_SeedReadbackAndWriters : (3 < 4 ∧ 0x38 + 4 * 3 = 0x44) ∧
    (after (inFlight 0x00000002 { Staging.zero with data3 := 1 } [] (fresh .enc true))).map
      (fun t => t.cfg.seed) ≠ some (fresh .enc true).cfg.seed := by decide

theorem test_witness_BufferBytesTouched :
    EncReady (encState .ctr .always) ∧ ¬ EncReady (fresh .enc true) ∧
      DecReady (decState .ctr .always [1, 2, 3, 4]) ∧ ¬ DecReady (fresh .dec true) :=
  ⟨encState_ready _ _, fun h => absurd h.2.2.1 (by decide), decState_ready _ _ _,
    fun h => absurd h.2.2.1 (by decide)⟩

/-- Two memories that agree on the input range, and differ elsewhere. -/
theorem test_witness_OnlyInputBytesMatter :
    (∀ k < 3, Memory.read (memWrite frame10 0x3000 [1]) (0x1000 + k) = Memory.read frame10 (0x1000 + k)) ∧
      memWrite frame10 0x3000 [1] ≠ frame10 := by decide

/-- A frame command in flight and an illegal word in flight, with no input waiting. -/
theorem test_witness_EveryCommandEnds :
    (({ encState .ctr .always with inputs := [] }).status.busy = true ∧
      decodeWord (encState .ctr .always).snap.cmd = .ok (.encrypt .video)) ∧
    (({ inFlight 0x00000014 Staging.zero [] (fresh .enc true) with inputs := [] }).status.busy = true ∧
      ∀ i, decodeWord 0x00000014 ≠ .ok i) := by
  refine ⟨by decide, by decide, fun i h => ?_⟩
  have : (decodeWord 0x00000014).isOk = false := by decide
  rw [h] at this
  cases this

theorem test_witness_StatusCodesByCommand (i : Instr) : ∃ t, exec i (fresh .enc true) = .next t := by
  obtain ⟨t, h, -⟩ := exec_end i (fresh .enc true)
  exact ⟨t, h⟩

/-- The words that `SET_MODE`, `SET_POLICY` and `SET_FORCE_FAIL` reject, at both ends of `IMM8`. -/
theorem test_witness_flag_words :
    (∀ w ∈ [0x00000203, 0x0000FF03], w % 2 ^ 8 = 0x03 ∧ 2 ≤ w / 2 ^ 8 % 2 ^ 8) ∧
      (∀ w ∈ [0x00000204, 0x0000FF04], w % 2 ^ 8 = 0x04 ∧ 2 ≤ w / 2 ^ 8 % 2 ^ 8) ∧
      ∀ w ∈ [0x00000205, 0x0000FF05], w % 2 ^ 8 = 0x05 ∧ 2 ≤ w / 2 ^ 8 % 2 ^ 8 := by decide

theorem test_witness_SetForceFailEffect :
    (fresh .enc true).params.testHooks = true ∧ (fresh .dec false).params.testHooks = false := by decide

theorem test_witness_AdvSeedEffect :
    (ready .enc .ctr .always).cfg.seedV = true ∧ (fresh .enc true).cfg.seedV = false := by decide

/-- The first and the last opcode of the family. -/
theorem test_witness_ConfigCommandsInCommon :
    (encode .setKey).toNat % 2 ^ 8 = 0x01 ∧ (encode .advSeed).toNat % 2 ^ 8 = 0x08 := by decide

/-- Both branches of both rules, at the boundary sizes. -/
theorem test_witness_Maxout :
    (fresh .enc true).params.role = .enc ∧ (fresh .dec true).params.role = .dec ∧
      (bufs 0 0xFFFFFFFF 0 0).inLen.toNat = 2 ^ 32 - 1 ∧ (bufs 0 0xFFFFFFFE 0 0).inLen.toNat ≠ 2 ^ 32 - 1 ∧
      (bufs 0 0 0 0).inLen.toNat = 0 ∧ (bufs 0 1 0 0).inLen.toNat ≠ 0 := by decide

theorem test_witness_ForcedFailureComesFirst :
    let s (r : Role) : State := { fresh r true with cfg := { Settings.reset with forceFail := true } }
    (s .enc).params.role = .enc ∧ (s .enc).cfg.forceFail = true ∧
      (s .dec).params.role = .dec ∧ (s .dec).cfg.forceFail = true := by decide

/-- Each violation of R69: the size, the two ranges one byte too long, and an overlap of one byte. -/
theorem test_witness_EncContractViolations :
    (ready .enc .ctr .always).params.role = .enc ∧ (ready .enc .ctr .always).cfg.forceFail = false ∧
      (bufs 0 3 0x2000 3).outLen.toNat ≠ (bufs 0 3 0x2000 3).inLen.toNat + 1 ∧
      (bufs 0xFFFFFFFE 3 0 4).outLen.toNat = (bufs 0xFFFFFFFE 3 0 4).inLen.toNat + 1 ∧
      ¬ RangesFit (bufs 0xFFFFFFFE 3 0 4) ∧ ¬ RangesFit (bufs 0 3 0xFFFFFFFD 4) ∧
      RangesFit (bufs 0x100 3 0x102 4) ∧ BuffersOverlap (bufs 0x100 3 0x102 4) := by decide

theorem test_witness_DecContractViolations :
    (ready .dec .ctr .always).params.role = .dec ∧ (ready .dec .ctr .always).cfg.forceFail = false ∧
      (bufs 0 0 0 0).outLen.toNat + 1 ≠ (bufs 0 0 0 0).inLen.toNat ∧
      (bufs 0xFFFFFFFD 4 0 3).outLen.toNat + 1 = (bufs 0xFFFFFFFD 4 0 3).inLen.toNat ∧
      ¬ RangesFit (bufs 0xFFFFFFFD 4 0 3) ∧ ¬ RangesFit (bufs 0 4 0xFFFFFFFE 3) ∧
      RangesFit (bufs 0x100 4 0x101 3) ∧ BuffersOverlap (bufs 0x100 4 0x101 3) := by decide

/-- Buffers that just fit, and that just do not overlap: the other side of the boundaries. -/
theorem test_witness_contract_boundaries :
    RangesFit (bufs 0xFFFFFFFD 3 0 4) ∧ RangesFit (bufs 0 3 0xFFFFFFFC 4) ∧
      ¬ BuffersOverlap (bufs 0x100 3 0x103 4) ∧ ¬ BuffersOverlap (bufs 0x100 0 0x100 1) ∧
      ¬ BuffersOverlap (bufs 0x100 1 0x100 0) := by decide

/-- Unprovisioned in each mode, with a contract that holds, for both commands. -/
theorem test_witness_FramesNeedProvisioning :
    ¬ Provisioned (fresh .enc true).cfg ∧
      ¬ Provisioned { provisionedSettings with mode := .legacyXor, xkeyV := false } ∧
      ¬ Provisioned { provisionedSettings with seedV := false } ∧
      (fresh .enc true).cfg.forceFail = false ∧ RangesFit normal ∧ ¬ BuffersOverlap normal ∧
      normal.outLen.toNat = normal.inLen.toNat + 1 ∧ RangesFit normalDec ∧ ¬ BuffersOverlap normalDec ∧
      normalDec.outLen.toNat + 1 = normalDec.inLen.toNat := by decide

/-- Encrypted and passed-through frames, in both modes, and the empty payload. -/
theorem test_witness_EncryptFrameResult :
    (EncReady (encState .ctr .always) ∧ FrameEncrypted (encState .ctr .always) .audio) ∧
      (EncReady (encState .legacyXor .keyframeOnly) ∧
        FrameEncrypted (encState .legacyXor .keyframeOnly) .video ∧
        ¬ FrameEncrypted (encState .legacyXor .keyframeOnly) .audio) ∧
      (EncReady (inFlight 0x00010010 (bufs 5 0 5 1) [] (ready .enc .ctr .keyframeOnly)) ∧
        ¬ FrameEncrypted (inFlight 0x00010010 (bufs 5 0 5 1) [] (ready .enc .ctr .keyframeOnly)) .video) :=
  ⟨⟨encState_ready _ _, by decide⟩, ⟨encState_ready _ _, by decide, by decide⟩,
    encReady_of _ _ _ _ (by decide), by decide⟩

/-- A key frame and another, before and at the 300th frame, and a command that is no ready `ENCRYPT`. -/
theorem test_witness_EncryptTelemetry :
    (EncReady (encState .ctr .always) ∧ VideoKeyFrame (encState .ctr .always) ∧
      ((encState .ctr .always).stats.frames + 1).toNat ≠ 300) ∧
    (EncReady { encState .ctr .always with mem := frame11, stats := { Stats.zero with frames := 299 } } ∧
      ¬ VideoKeyFrame { encState .ctr .always with
        mem := frame11, stats := { Stats.zero with frames := 299 } } ∧ ((299 : Word) + 1).toNat = 300) ∧
    ¬ (Instr.encrypt .audio = .encrypt .video ∧ EncReady (encState .ctr .always)) :=
  ⟨⟨encState_ready _ _, by decide, by decide⟩, ⟨encState_ready .ctr .always, by decide, by decide⟩,
    fun h => absurd h.1 (by decide)⟩

/-- Every row of the table of R74: both modes and both policies, with a trailer that matches and one that
does not, and a trailer alone. -/
theorem test_witness_DecryptFrameResult :
    (∀ m p X, DecReady (decState m p X)) ∧
      (∀ tr ∈ [(0xFF : Byte), 0x37], 3 + 1 = (decState .ctr .always [1, 2, 3, tr]).snap.ops.inLen.toNat ∧
        tr = (decState .ctr .always [1, 2, 3, tr]).mem.read
          ((decState .ctr .always [1, 2, 3, tr]).snap.ops.inAddr.toNat + 3)) ∧
      DecReady (inFlight 0x00010011 (bufs 0x1000 1 0x1000 0) [] (ready .dec .ctr .always)) :=
  ⟨decState_ready, by decide, decReady_of _ _ _ _ (by decide)⟩

/-- The last byte of a block and the first of the next; two payloads of one length. -/
theorem test_witness_keystream_bounds :
    15 < 17 ∧ 16 < 17 ∧ ([1, 2] : Bytes).length = ([3, 4] : Bytes).length := by decide

/-- `CMD` writes to an idle, a busy and a fatal instance; the first and the last staging register. -/
theorem test_witness_CommandAcceptance :
    let e : Input := .regWrite 0x40000000 4 0x00000001
    ((host e (fresh .enc true)).inputs = .regWrite (fresh .enc true).params.regBase 4 0x00000001 :: [] ∧
      (fresh .enc true).status.busy = false ∧ (fresh .enc true).status.fatal = false) ∧
    (host e (encState .ctr .always)).status.busy = true ∧ (host e fatalState).status.fatal = true ∧
    (6 ≤ 6 ∧ 13 ≤ 13 ∧ 0x18 = 4 * 6 ∧ 0x34 = 4 * 13) := by decide

/-- A read of the first register, of the last one, and of both ends of the reserved offsets. -/
theorem test_witness_RegisterReads :
    (host (.regRead (0x40000000 + 0x84) 4) (fresh .enc true)).inputs =
        .regRead ((fresh .enc true).params.regBase + 0x84) 4 :: [] ∧
      (0x00, 0) ∈ registerValues (fresh .enc true) ∧ (0x0C, 0x11) ∈ registerValues (fresh .enc true) ∧
      (0x84, 0) ∈ registerValues (fresh .enc true) ∧
      (0x88 % 4 = 0 ∧ 0xFC % 4 = 0 ∧ 0x88 ≤ 0x88 ∧ 0xFC ≤ 0xFC) := by decide

/-- A write at each kind of offset, at the ends of each range. -/
theorem test_witness_RegisterWrites :
    ∀ off ∈ [0x04, 0x08, 0x0C, 0x10, 0x14, 0x18, 0x34, 0x38, 0xFC], off % 4 = 0 ∧
      (host (.regWrite (0x40000000 + off) 4 5) (fresh .enc true)).inputs =
        .regWrite ((fresh .enc true).params.regBase + off) 4 5 :: [] := by decide

/-- The last register; a byte access; an access that straddles the end of the window. -/
theorem test_witness_UnsupportedAccessRefused :
    (∃ a, 0x40000000 ≤ a ∧ a < 0x40000000 + 256 ∧ 0x400000FC ≤ a ∧ a < 0x400000FC + 4) ∧
      (4 = 4 ∧ 0x400000FC = 0x40000000 + 4 * 63) ∧
      (∃ a, 0x40000000 ≤ a ∧ a < 0x40000000 + 256 ∧ 0x40000001 ≤ a ∧ a < 0x40000001 + 1) ∧
      ∃ a, 0x40000000 ≤ a ∧ a < 0x40000000 + 256 ∧ 0x400000FE ≤ a ∧ a < 0x400000FE + 4 :=
  ⟨⟨0x400000FC, by decide⟩, by decide, ⟨0x40000001, by decide⟩, ⟨0x400000FE, by decide⟩⟩

/-- The first and the last byte of each range race, and their neighbours do not. -/
theorem test_witness_HostBufferAccess :
    (encState .ctr .always).status.busy = true ∧
      decodeWord (encState .ctr .always).snap.cmd = .ok (.encrypt .video) ∧
      (Instr.encrypt .video).legalOn .enc true = true ∧
      (∀ a ∈ [0x1000, 0x1002], inInputRange (encState .ctr .always) a = true) ∧
      (∀ a ∈ [0x2000, 0x2003], inOutputRange (encState .ctr .always) a = true) ∧
      ∀ a ∈ [0x0FFF, 0x1003, 0x1FFF, 0x2004], inInputRange (encState .ctr .always) a = false ∧
        inOutputRange (encState .ctr .always) a = false := by decide

theorem test_witness_FatalStateIsSticky :
    (host .reset fatalState).inputs.head? = some .reset ∧
      fatalState.status.fatal = true ∧ fatalState.status.busy = false ∧
      fatalState.inputs.head? ≠ some .reset ∧ (after fatalState).isSome = true ∧ 1 ≤ 63 := by decide

/-- A step that newly sets each pending bit. -/
theorem test_witness_InterruptSources :
    (after (inFlight 0x00000001 Staging.zero [] (fresh .enc true))).map State.irqPend = some 1 ∧
      (after (inFlight 0x00010010 normal frame11
        { ready .enc .legacyXor .always with stats := { Stats.zero with frames := 299 } })).map
          State.irqPend = some 3 ∧
      (after (inFlight 0x00010010 Staging.zero [] (ready .enc .ctr .always))).map State.irqPend = some 4 ∧
      (after (host (.regWrite 0x40000000 4 0) (raiseFatal .range State.reset))).map State.irqPend = none ∧
      (after (host (.regWrite 0x40000000 4 0) (encState .ctr .always))).map State.irqPend = some 8 := by decide

/-- A pending bit kept, one cleared by the host, and one enabled. -/
theorem test_witness_PendingUntilCleared :
    (after { fresh .enc true with irqPend := 3 }).map State.irqPend = some 3 ∧
      (after (host (.regWrite (0x40000000 + 0x14) 4 1) { fresh .enc true with irqPend := 3 })).map
        State.irqPend = some 2 ∧
      (3 : BitVec 4).getLsbD 1 = true ∧ (2 : Word).getLsbD 1 = true ∧ (fresh .enc true).irqEn = 0 := by decide

theorem test_witness_KeysAreNotReadable :
    SameButKeys (encState .ctr .always)
      { encState .ctr .always with cfg := { provisionedSettings with key := 1, xkey := 2 } } := ⟨1, 2, rfl⟩

/-- The peer of an Encryptor: the same configuration, the Encryptor's output as its input. -/
def peer (a : State) (md : Media) : State :=
  { inFlight 0x00010011 (bufs 0x2000 4 0x3000 3) (encryptFrame md a).mem (ready .dec a.cfg.mode a.cfg.policy)
    with cfg := a.cfg }

/-- All the hypotheses of the round trip, for any ready Encryptor with the default buffers. -/
theorem test_witness_FrameRoundTrip (m : Mode) (p : Policy) (v : Byte) (md : Media) :
    let a := withMarker v (encState m p)
    let b := peer a md
    EncReady a ∧ DecReady b ∧ 3 = a.snap.ops.inLen.toNat ∧ b.snap.ops.inLen.toNat = 3 + 1 ∧
      b.cfg = a.cfg ∧ exec (.encrypt md) a = .next (encryptFrame md a) ∧
      ∀ j ≤ 3, b.mem.read (b.snap.ops.inAddr.toNat + j) =
        (encryptFrame md a).mem.read (a.snap.ops.outAddr.toNat + j) := by
  have ha : EncReady (withMarker v (encState m p)) := encState_ready m p
  have hb : DecReady (peer (withMarker v (encState m p)) md) :=
    decReady_of (o := bufs 0x2000 4 0x3000 3) 0 [] m p (by decide)
  exact ⟨ha, hb, rfl, rfl, rfl, exec_encrypt_ready md ha, fun _ _ => rfl⟩

/-- The cases of the round trip: an encrypted frame, and passed-through frames with and without a
marker. -/
theorem test_witness_FrameRoundTrip_cases :
    FrameEncrypted (withMarker 0xFF (encState .ctr .keyframeOnly)) .video ∧
      ¬ FrameEncrypted (withMarker 0xFF (encState .ctr .keyframeOnly)) .audio ∧
      ¬ FrameEncrypted (withMarker 0xFF (encState .legacyXor .keyframeOnly)) .audio ∧
      ¬ FrameEncrypted (withMarker 0 (encState .ctr .keyframeOnly)) .audio ∧
      (withMarker 0xFF (encState .ctr .always)).cfg.marker ≠ 0 ∧
      (withMarker 0 (encState .ctr .always)).cfg.marker = 0 := by decide

theorem test_witness_SummaryAfter300VideoFrames :
    EncReady (encState .ctr .always) ∧ (encState .ctr .always).stats = Stats.zero ∧
      VideoKeyFrame (encState .ctr .always) :=
  ⟨encState_ready _ _, rfl, by decide⟩

end Sys2Proof.Tests
end

section
/-! SUPPORT. The state family: what the window reads after reset, the seed registers, and the acceptance of
command words with the independence of a command from the staging registers. -/

namespace Sys2Proof.Machine

/-! ## Reset -/

theorem statusWord_reset : statusWord Status.reset = 0 := by decide

theorem sumCfgWord_reset : sumCfgWord Summary.reset = 0 := by decide

theorem highWord_zero : highWord 0 = 0 := by decide

theorem seedWord_zero {k : Nat} (hk : k < 4) : seedWord 0 k = 0 := by
  interval_cases k <;> decide

/-- After reset every register reads 0, but `CFG` (R26). -/
theorem readReg_resetOf (r : Reg) (p : Params) (mem : Memory) (inputs : List Input) (d : Nat) (v : Word) :
    readReg r (State.resetOf p mem inputs d v) = if r = .cfg then cfgWord p Settings.reset else 0 := by
  cases r with
  | cfg => rfl
  | status => exact statusWord_reset
  | sumCfg => exact sumCfgWord_reset
  | seed0 | seed1 | seed2 | seed3 => exact seedWord_zero (by decide)
  | stTotalHi | stKfHi | sumTotalHi | sumKfHi => exact highWord_zero
  | cmd | result | irqEn | irqPend | data0 | data1 | data2 | data3 | inAddr | inLen | outAddr | outLen
  | stFrames | stKframes | stTotalLo | stKfLo | stMax | sumFrames | sumKframes | sumTotalLo | sumKfLo
  | sumMax | sumCount | reserved => rfl

/-- `CFG` after reset: `MODE` = 1 with the constants `ROLE` and `TEST_HOOKS` (R18, R26). -/
theorem cfgWord_reset_toNat (p : Params) : (cfgWord p Settings.reset).toNat =
    1 + 2 ^ 3 * p.role.bit.toNat + 2 ^ 4 * p.testHooks.toNat := by
  obtain ⟨role, hooks, base⟩ := p
  show (cfgWord ⟨role, hooks, 0⟩ Settings.reset).toNat = 1 + 2 ^ 3 * role.bit.toNat + 2 ^ 4 * hooks.toNat
  cases role <;> cases hooks <;> decide

theorem irq_resetOf (p : Params) (mem : Memory) (inputs : List Input) (d : Nat) (v : Word) :
    irq (State.resetOf p mem inputs d v) = false :=
  (by decide : ((0 : BitVec 4) &&& 0 != 0) = false)

theorem dataWord_zero (k : Nat) : dataWord Staging.zero k = 0 := by
  unfold dataWord
  split <;> rfl

/-- Settles O8: the registers by `readReg_resetOf`, every other element by its definition. -/
theorem resetValues : Obligations.ResetValues := by
  rintro p mem inputs d v s rfl
  refine ⟨fun r => ?_, rfl, rfl, rfl, rfl, rfl, rfl, rfl, rfl, rfl, rfl, rfl, rfl, rfl, rfl, rfl, rfl, rfl,
    dataWord_zero, rfl, rfl, rfl, rfl, rfl, rfl, irq_resetOf p mem inputs d v, rfl, rfl, _, _, _, _, _, rfl⟩
  rw [readReg_resetOf, apply_ite BitVec.toNat, cfgWord_reset_toNat]
  rfl

/-! ## The seed -/

/-- `SEEDk` stands at `0x38 + 4k`, reads the seed and ignores writes (R12, R22). -/
theorem seedReg_spec {k : Nat} (hk : k < 4) : regAt (0x38 + 4 * k) = seedReg k ∧
    ∀ s : State, readReg (seedReg k) s = seedWord s.cfg.seed k ∧
      ∀ v, writeReg (seedReg k) v s = s := by
  interval_cases k <;> exact ⟨rfl, fun _ => ⟨rfl, fun _ => rfl⟩⟩

/-- Byte `b` of `SEEDk` is byte `4k + b` of the seed (R22). -/
theorem wordByte_seedWord (seed : Bytes16) (k : Nat) {b : Nat} (hb : b < 4) :
    wordByte (seedWord seed k) b = blockByte seed (4 * k + b) := by
  obtain ⟨h0, h1, h2, h3⟩ := wordByte_packWord (blockByte seed (4 * k)) (blockByte seed (4 * k + 1))
    (blockByte seed (4 * k + 2)) (blockByte seed (4 * k + 3))
  interval_cases b
  · exact h0
  · exact h1
  · exact h2
  · exact h3

/-- What a `DECRYPT` past its checks leaves of the configuration and the staging registers, and that it
ends the command (R74). -/
theorem decryptFrame_frame {s : State} (h : DecReady s) : (decryptFrame s).cfg = s.cfg ∧
    (decryptFrame s).staging = s.staging ∧ (decryptFrame s).status.busy = false := by
  obtain ⟨out, code, cause, r, e, -⟩ := decryptFrame_shape h
  rw [e]
  exact ⟨rfl, rfl, rfl⟩

/-- A command leaves the configuration alone, or is a setter that leaves its new one (R47). -/
theorem ExecEnd.cfg_eq {i : Instr} {s t : State} (h : ExecEnd i s t) :
    t.cfg = s.cfg ∨ t.cfg = newSettings i s := by
  cases h with
  | plain => exact .inl rfl
  | setter => exact .inr rfl
  | fatal => exact .inl rfl
  | encrypted => exact .inl (encryptFrame_cfg ..)
  | decrypted md hi h => exact .inl (decryptFrame_frame h).1

/-- The settings of every configuration command but `SET_SEED` and `ADV_SEED` keep the seed. -/
theorem newSettings_seed (i : Instr) (s : State) :
    (newSettings i s).seed = s.cfg.seed ∨ i = .setSeed ∨ i = .advSeed := by
  cases i with
  | setSeed => exact .inr (.inl rfl)
  | advSeed => exact .inr (.inr rfl)
  | setKey | setMode | setPolicy | setForceFail | setMarker | setXkey | encrypt | decrypt | encMaxout
  | decMaxout => exact .inl rfl

/-- Settles O18: the packing of `SEEDk` byte by byte, and the commands that write the seed by their ends. -/
theorem seedReadbackAndWriters : Obligations.SeedReadbackAndWriters := by
  refine ⟨fun s k b hk hb => ?_, fun k hk => ?_, fun i s t h hne => ?_⟩
  · rw [((seedReg_spec hk).2 s).1, wordByte_seedWord _ _ hb]
  · obtain ⟨hat, hrw⟩ := seedReg_spec hk
    exact ⟨hat, (hrw State.reset).1.trans (seedWord_zero hk), fun v s => (hrw s).2 v⟩
  · rcases (execEnd_of_exec h).cfg_eq with e | e <;> rw [e] at hne
    · exact absurd rfl hne
    · exact (newSettings_seed i s).resolve_left hne

/-! ## Command acceptance -/

theorem writeCmd_accepted {s : State} (w : Word) (hb : s.status.busy = false)
    (hf : s.status.fatal = false) : writeCmd w s = acceptCommand w s := by
  simp [writeCmd, hb, hf]

theorem writeCmd_dropped {s : State} (w : Word) (h : s.status.busy = true ∨ s.status.fatal = true) :
    writeCmd w s = setPending irqOvr s := by
  rcases h with h | h <;> simp [writeCmd, h]

/-- A write to one of the eight staging registers changes the staging registers only (R20, R21). -/
theorem writeReg_staging {k : Nat} (h6 : 6 ≤ k) (h13 : k ≤ 13) (v : Word) (s : State) :
    ∃ g, writeReg (regAt (4 * k)) v s = { s with staging := g } := by
  interval_cases k <;> exact ⟨_, rfl⟩

/-- A command ends with `BUSY` clear and the staging registers as they were (R14, R86, R87). -/
theorem ExecEnd.busy_staging {i : Instr} {s t : State} (h : ExecEnd i s t) :
    t.status.busy = false ∧ t.staging = s.staging := by
  cases h with
  | plain => exact ⟨rfl, rfl⟩
  | setter => exact ⟨rfl, rfl⟩
  | fatal => exact ⟨rfl, rfl⟩
  | encrypted => exact ⟨by simp, by simp⟩
  | decrypted md hi h => exact (decryptFrame_frame h).2.symm

/-- `s` with other staging registers. -/
abbrev State.withStaging (g : Staging) (s : State) : State := { s with staging := g }

/-- The answer of a command, with other staging registers in its next state. -/
def withStagingResult (g : Staging) : Result → Result
  | .next t => .next (t.withStaging g)
  | .fault r => .fault r
  | .refused r => .refused r

/-- The `STATS` phase does not look at the staging registers. -/
theorem frameStats_withStaging (md : Media) (P : Bytes) (g : Staging) (s : State) :
    frameStats md P (s.withStaging g) = (frameStats md P s).withStaging g := by
  cases md with
  | audio => rfl
  | video =>
    simp only [frameStats, statsUpdate, summaryIfDue, apply_ite (State.withStaging g)]
    rfl

theorem encryptFrame_withStaging (md : Media) (g : Staging) (s : State) :
    encryptFrame md (s.withStaging g) = (encryptFrame md s).withStaging g :=
  congrArg (complete .ok .none (BitVec.ofNat 32 (s.snap.ops.inLen.toNat + 1)))
    (frameStats_withStaging md (payload s) g
      { s with mem := memWrite s.mem s.snap.ops.outAddr.toNat (encFrame s.cfg md (payload s)) })

theorem decryptFrame_withStaging (g : Staging) (s : State) :
    decryptFrame (s.withStaging g) = (decryptFrame s).withStaging g := by
  unfold decryptFrame
  dsimp only
  cases s.cfg.mode with
  | ctr => simp only [apply_ite (State.withStaging g)]; rfl
  | legacyXor => cases s.cfg.policy <;> simp only [apply_ite (State.withStaging g)] <;> rfl

theorem execEncrypt_withStaging (md : Media) (g : Staging) (s : State) :
    execEncrypt md (s.withStaging g) = withStagingResult g (execEncrypt md s) := by
  unfold execEncrypt
  simp only [encryptFrame_withStaging, apply_ite (withStagingResult g)]
  cases encContract s.snap.ops with
  | some cause => rfl
  | none => simp only [apply_ite (withStagingResult g)]; rfl

theorem execDecrypt_withStaging (md : Media) (g : Staging) (s : State) :
    execDecrypt md (s.withStaging g) = withStagingResult g (execDecrypt md s) := by
  unfold execDecrypt
  simp only [decryptFrame_withStaging, apply_ite (withStagingResult g)]
  cases decContract s.snap.ops with
  | some cause => rfl
  | none => simp only [apply_ite (withStagingResult g)]; rfl

/-- Every command takes its operands from the snapshot (R14, R43): beside other staging registers it ends
alike. -/
theorem exec_withStaging (i : Instr) (g : Staging) (s : State) :
    exec i (s.withStaging g) = withStagingResult g (exec i s) := by
  cases i with
  | setKey | setSeed | setMode | setPolicy | setMarker | setXkey => rfl
  | setForceFail f => simp only [exec, execSetForceFail, apply_ite (withStagingResult g)]; rfl
  | advSeed => simp only [exec, execAdvSeed, apply_ite (withStagingResult g)]; rfl
  | encrypt md => exact execEncrypt_withStaging md g s
  | decrypt md => exact execDecrypt_withStaging md g s
  | encMaxout md =>
    obtain ⟨code, cause, r, h⟩ := execEncMaxout_pure md s.params.role s.snap.ops.inLen
    exact (h (s.withStaging g) rfl rfl).trans (congrArg (withStagingResult g) (h s rfl rfl).symm)
  | decMaxout md =>
    obtain ⟨code, cause, r, h⟩ := execDecMaxout_pure md s.params.role s.snap.ops.inLen
    exact (h (s.withStaging g) rfl rfl).trans (congrArg (withStagingResult g) (h s rfl rfl).symm)

/-- Settles O49: the `CMD` write by the two cases of R14, the command by its ends and by
`exec_withStaging`, the staging writes register by register. -/
theorem commandAcceptance : Obligations.CommandAcceptance := by
  refine ⟨fun s rest w h => ?_, fun i s t g h => ?_, fun s rest k v h6 h13 h => ?_⟩
  · have hstep : step s = .next (writeCmd w { s with inputs := rest }) :=
      step_regWrite (k := 0) (by decide) h
    exact ⟨fun ⟨hb, hf⟩ => hstep.trans (congrArg _ (writeCmd_accepted w hb hf)),
      fun hd => hstep.trans (congrArg _ (writeCmd_dropped w hd))⟩
  · obtain ⟨hb, hs⟩ := (execEnd_of_exec h).busy_staging
    exact ⟨hb, hs, (exec_withStaging i g s).trans (congrArg (withStagingResult g) h)⟩
  · obtain ⟨g, hg⟩ := writeReg_staging h6 h13 v { s with inputs := rest }
    exact ⟨g, (step_regWrite (by omega) h).trans (congrArg _ hg)⟩

end Sys2Proof.Machine
end

section
/-! SUPPORT. The encoding family: the text of R44 and the decoder reject the same words on every instance, and
a rejected word in flight completes `ILLEGAL_CMD`. -/

namespace Sys2Proof.Machine

/-! ## The text of R44 and the decoder -/

/-- What the decoder answers is no command that the instance may run (R44). -/
def Rejected (role : Role) (testHooks : Bool) (d : Except DecodeError Instr) : Prop :=
  ∀ i, d = .ok i → i.legalOn role testHooks = false

section

variable {role : Role} {testHooks : Bool} {w : Word}

@[simp] theorem rejected_error (e : DecodeError) : Rejected role testHooks (.error e) := nofun

@[simp] theorem rejected_ok_iff {i : Instr} :
    Rejected role testHooks (.ok i) ↔ i.legalOn role testHooks = false := by
  simp [Rejected]

/-- A check of the decoder rejects the words it catches, and passes the others on. -/
theorem rejected_check_iff {c : Prop} [Decidable c] {e : DecodeError} {d : Except DecodeError Instr} :
    Rejected role testHooks (if c then .error e else d) ↔ c ∨ Rejected role testHooks d := by
  by_cases hc : c <;> simp [hc]

theorem cmdRsv_ne_zero_iff : cmdRsv w ≠ 0 ↔ (cmdRsv w).toNat ≠ 0 :=
  BitVec.toNat_ne (y := 0)

theorem cmdImm_ne_zero_iff : cmdImm w ≠ 0 ↔ (cmdImm w).toNat ≠ 0 :=
  BitVec.toNat_ne (y := 0)

theorem cmdMedia_eq_true_iff : cmdMedia w = true ↔ (cmdMedia w).toNat = 1 := by
  cases cmdMedia w <;> decide

theorem decodeBare_rejected_iff {i : Instr} : Rejected role testHooks (decodeBare w i) ↔
    (cmdImm w).toNat ≠ 0 ∨ (cmdMedia w).toNat = 1 ∨ i.legalOn role testHooks = false := by
  rw [decodeBare, rejected_check_iff, rejected_check_iff, rejected_ok_iff, cmdImm_ne_zero_iff,
    cmdMedia_eq_true_iff]

/-- Legality on the instance does not turn on the flag, so `f false` stands for both of its values. -/
theorem decodeFlag_rejected_iff {f : Bool → Instr}
    (hf : (f true).legalOn role testHooks = (f false).legalOn role testHooks) :
    Rejected role testHooks (decodeFlag w f) ↔
      2 ≤ (cmdImm w).toNat ∨ (cmdMedia w).toNat = 1 ∨ (f false).legalOn role testHooks = false := by
  rw [decodeFlag, rejected_check_iff, cmdMedia_eq_true_iff, or_left_comm]
  refine or_congr_right ?_
  split
  · next h => simp [h]
  · next h0 =>
    split
    · next h => simp [h, hf]
    · next h1 =>
      have : 2 ≤ (cmdImm w).toNat := by bv_omega
      simp [this]

theorem decodeImm_rejected_iff {f : Byte → Instr} : Rejected role testHooks (decodeImm w f) ↔
    (cmdMedia w).toNat = 1 ∨ (f (cmdImm w)).legalOn role testHooks = false := by
  rw [decodeImm, rejected_check_iff, rejected_ok_iff, cmdMedia_eq_true_iff]

theorem decodeMedia_rejected_iff {f : Media → Instr} : Rejected role testHooks (decodeMedia w f) ↔
    (cmdImm w).toNat ≠ 0 ∨ (f (Media.ofBit (cmdMedia w))).legalOn role testHooks = false := by
  rw [decodeMedia, rejected_check_iff, rejected_ok_iff, cmdImm_ne_zero_iff]

/-- R44 rejects the words that decode to no command legal on the instance: after the reserved bits, row by row
of the table of R42. -/
theorem illegalWord_iff_rejected :
    IllegalWord role testHooks w ↔ Rejected role testHooks (decodeWord w) := by
  simp only [IllegalWord, ← cmdOp_toNat, ← cmdImm_toNat, ← cmdMedia_toNat, ← cmdRsv_toNat]
  rw [decodeWord, rejected_check_iff, cmdRsv_ne_zero_iff, or_left_comm]
  refine or_congr_right ?_
  split
  -- `SET_KEY`, `SET_SEED`, `ADV_SEED`
  case h_1 hop | h_2 hop | h_8 hop =>
    simp [hop, opcodes, decodeBare_rejected_iff, Instr.legalOn]
  -- `SET_MODE`, `SET_POLICY`, `SET_FORCE_FAIL`
  case h_3 hop | h_4 hop | h_5 hop =>
    rw [decodeFlag_rejected_iff rfl]
    simp [hop, opcodes, Instr.legalOn]
  -- `SET_MARKER`, `SET_XKEY`
  case h_6 hop | h_7 hop =>
    simp [hop, opcodes, decodeImm_rejected_iff, Instr.legalOn]
  -- the frame and the size commands
  case h_9 hop | h_10 hop | h_11 hop | h_12 hop =>
    cases role <;> simp [hop, opcodes, decodeMedia_rejected_iff, Instr.legalOn]
  -- no row of the table
  case h_13 =>
    have hop : (cmdOp w).toNat ∉ opcodes := by simp_all [opcodes]
    simp [hop]

end

/-! ## An illegal word in flight -/

/-- A command that the instance may not run completes `ILLEGAL_CMD` before any other check (R44, R92). -/
theorem exec_illegal {i : Instr} {s : State}
    (h : i.legalOn s.params.role s.params.testHooks = false) :
    exec i s = .next (complete .illegalCmd .none 0 s) := by
  cases i with
  | setKey | setSeed | setMode | setPolicy | setMarker | setXkey | advSeed => cases h
  | setForceFail => exact if_neg (Bool.eq_false_iff.mp h)
  | encrypt | decrypt | encMaxout | decMaxout => exact if_pos (beq_eq_false_iff_ne.mp h)

theorem runCommand_rejected {s : State}
    (h : Rejected s.params.role s.params.testHooks (decodeWord s.snap.cmd)) :
    runCommand s = .next (complete .illegalCmd .none 0 s) := by
  unfold runCommand
  cases hd : decodeWord s.snap.cmd with
  | error e => rfl
  | ok i => exact exec_illegal (h i hd)

theorem runCommand_decoded {s : State} {i : Instr} (h : decodeWord s.snap.cmd = .ok i) :
    runCommand s = exec i s := by
  rw [runCommand, h]

/-- The engine's turn with an accepted word in flight (R14, R66). -/
theorem step_engine_busy {s : State} {rest : List Input} (hbusy : s.status.busy = true)
    (hq : s.inputs = .engine :: rest) : step s = runCommand { s with inputs := rest } := by
  show nextStep s = _
  rw [nextStep, hq]
  exact if_pos hbusy

/-- Settles O6: `illegalWord_iff_rejected` reads R44 off the decoder; a rejected word completes by
`runCommand_rejected`, any other decodes to a command that the instance may run. -/
theorem illegalWordsComplete : Obligations.IllegalWordsComplete := by
  intro s rest hbusy hq
  rw [step_engine_busy hbusy hq, illegalWord_iff_rejected]
  refine ⟨fun h => ⟨_, runCommand_rejected h, onlyCompletes_complete _ _ _ rfl⟩, fun h => ?_⟩
  simp only [Rejected, not_forall, Bool.not_eq_false] at h
  obtain ⟨i, hd, hlegal⟩ := h
  exact ⟨i, hd, hlegal, runCommand_decoded hd⟩

end Sys2Proof.Machine
end

section
/-! SUPPORT. The configuration commands: one equation for how each of them ends, and the words that select
them. -/

namespace Sys2Proof.Machine

/-! ## How a configuration command ends -/

/-- A setter that runs leaves its new configuration and completes `OK` (R47). -/
theorem exec_of_setterRuns {i : Instr} {s : State} (h : setterRuns i s = true) :
    exec i s = .next (complete .ok .none 0 { s with cfg := newSettings i s }) := by
  cases i with
  | setKey | setSeed | setMode | setPolicy | setMarker | setXkey => rfl
  | setForceFail | advSeed => exact if_pos h
  | encrypt | decrypt | encMaxout | decMaxout => cases h

theorem exec_advSeed_unseeded {s : State} (h : s.cfg.seedV = false) :
    exec .advSeed s = .next (complete .notProvisioned .none 0 s) :=
  if_neg (Bool.eq_false_iff.mp h)

/-- The code with which a configuration command completes (R47 to R55). -/
def configCode (i : Instr) (s : State) : Code :=
  if setterRuns i s then .ok else if i = .advSeed then .notProvisioned else .illegalCmd

/-- The configuration after a configuration command, whether or not it runs. -/
def configAfter (i : Instr) (s : State) : Settings :=
  if setterRuns i s then newSettings i s else s.cfg

/-- Every configuration command completes with `configCode` and `configAfter`, and does nothing else (R47). -/
theorem exec_config {i : Instr} (hop : (encode i).toNat % 2 ^ 8 ≤ 0x08) (s : State) :
    exec i s = .next (complete (configCode i s) .none 0 { s with cfg := configAfter i s }) := by
  cases h : setterRuns i s with
  | true => rw [exec_of_setterRuns h, configCode, configAfter, if_pos h, if_pos h]
  | false =>
    rw [configCode, configAfter, h]
    cases i with
    | setKey | setSeed | setMode | setPolicy | setMarker | setXkey => cases h
    | setForceFail => exact exec_illegal h
    | advSeed => exact exec_advSeed_unseeded h
    | encrypt md | decrypt md | encMaxout md | decMaxout md =>
      exact absurd hop (by cases md <;> decide)

theorem configCode_ne_forcedFailure (i : Instr) (s : State) : configCode i s ≠ .forcedFailure := by
  unfold configCode
  split
  · exact nofun
  · split <;> exact nofun

/-- A configuration command changes at most the fields that its rule names (R47). -/
theorem onlyNamedFields_configAfter (i : Instr) (s : State) :
    OnlyNamedFields i s.cfg (configAfter i s) := by
  unfold configAfter
  split
  · cases i <;> rfl
  · cases i <;> rfl

/-! ## What a configuration command depends on -/

/-- `s` on another role, with another value of `FORCE_FAIL` and beside other buffer memory. -/
abbrev State.elsewhere (s : State) (r : Role) (f : Bool) (m : Memory) : State :=
  { s with params := { s.params with role := r }, cfg := { s.cfg with forceFail := f }, mem := m }

section

variable (i : Instr) (s : State) (r : Role) (f : Bool) (m : Memory)

/-- Whether a setter runs turns on neither the role, nor `FORCE_FAIL`, nor buffer memory (R47). -/
theorem setterRuns_elsewhere : setterRuns i (s.elsewhere r f m) = setterRuns i s := by
  cases i <;> rfl

theorem configCode_elsewhere : configCode i (s.elsewhere r f m) = configCode i s := by
  rw [configCode, setterRuns_elsewhere, configCode]

/-- Elsewhere a configuration command leaves the same configuration, but for `FORCE_FAIL` (R47). -/
theorem configAfter_elsewhere :
    { configAfter i (s.elsewhere r f m) with forceFail := (configAfter i s).forceFail } =
      configAfter i s := by
  unfold configAfter
  rw [setterRuns_elsewhere]
  split
  · cases i <;> rfl
  · rfl

end

/-- Settles O30: the end by `exec_config`, here and elsewhere, and the two ends compared. -/
theorem configCommandsInCommon : Obligations.ConfigCommandsInCommon := by
  intro i s hop
  refine ⟨_, exec_config hop s, rfl, fun _ => rfl, ⟨rfl, rfl, rfl⟩, ⟨rfl, rfl, rfl, rfl, rfl, rfl⟩, rfl, rfl,
    configCode_ne_forcedFailure i s, onlyNamedFields_configAfter i s, rfl, fun r f m => ?_⟩
  refine ⟨_, exec_config hop (s.elsewhere r f m), rfl, ?_, rfl, rfl, configAfter_elsewhere i s r f m⟩
  rw [configCode_elsewhere]
  rfl

/-- Settles O29: with a seed by `ctrAdd_toNat`, without one by `exec_advSeed_unseeded`. -/
theorem advSeedEffect : Obligations.AdvSeedEffect :=
  ⟨by decide, fun s =>
    ⟨fun h => ⟨_, exec_of_setterRuns h, setterRan_complete s _, ctrAdd_toNat _ _⟩,
      fun h => ⟨_, exec_advSeed_unseeded h, onlyCompletes_complete s _ _ rfl⟩⟩⟩

/-! ## The staged bytes -/

/-- Two registers with the same four bytes are the same. -/
theorem word_eq_of_wordByte_eq {v w : Word} (h : ∀ b < 4, wordByte v b = wordByte w b) : v = w := by
  refine BitVec.eq_of_getLsbD_eq fun j hj => ?_
  have hbit := congrArg (·.getLsbD (j % 8)) (h (j / 8) (by omega))
  simpa only [getLsbD_wordByte, Nat.mod_lt j (by decide : 0 < 8), decide_true, Bool.true_and,
    Nat.div_add_mod] using hbit

/-- `SEEDk` reads back `LDATAk` where the seed is the operand `D` (R20, R22). -/
theorem seedWord_operandD (o : Staging) {k : Nat} (hk : k < 4) :
    seedWord (operandD o) k = dataWord o k :=
  word_eq_of_wordByte_eq fun b hb => by rw [wordByte_seedWord _ _ hb, blockByte_operandD o hk hb]

/-- Settles O23: `D` byte by byte, by `blockByte_operandD`. -/
theorem setKeyStoresStagedBytes : Obligations.SetKeyStoresStagedBytes :=
  ⟨by decide, fun s => ⟨_, exec_of_setterRuns rfl, setterRan_complete s _,
    fun _ _ hk hb => blockByte_operandD s.snap.ops hk hb⟩⟩

/-- Settles O24: `D` byte by byte, and the readback by `seedWord_operandD`. -/
theorem setSeedStoresStagedBytes : Obligations.SetSeedStoresStagedBytes :=
  ⟨by decide, fun s => ⟨_, exec_of_setterRuns rfl, setterRan_complete s _, fun k hk =>
    ⟨((seedReg_spec hk).2 _).1.trans (seedWord_operandD s.snap.ops hk),
      fun _ hb => blockByte_operandD s.snap.ops hk hb⟩⟩⟩

/-! ## The setters of one bit -/

/-- Every command may run on some role with the test hooks (R42). -/
theorem legalOn_some_role (i : Instr) : ∃ role, i.legalOn role true = true := by
  cases i with
  | decrypt | decMaxout => exact ⟨.dec, rfl⟩
  | setKey | setSeed | setMode | setPolicy | setForceFail | setMarker | setXkey | advSeed | encrypt
  | encMaxout => exact ⟨.enc, rfl⟩

/-- A word that is illegal on both roles, test hooks or not, decodes to no command (R44). -/
theorem decodeWord_error_of_illegal {w : Word} (h : ∀ role, IllegalWord role true w) :
    ∃ e, decodeWord w = .error e := by
  cases hd : decodeWord w with
  | error e => exact ⟨e, rfl⟩
  | ok i =>
    obtain ⟨role, hlegal⟩ := legalOn_some_role i
    have hillegal := illegalWord_iff_rejected.mp (h role) i hd
    rw [hlegal] at hillegal
    cases hillegal

/-- The setters of one bit take no immediate of 2 or more (R44). -/
theorem decodeWord_error_of_wide_imm {w : Word} (hop : w.toNat % 2 ^ 8 ∈ [0x03, 0x04, 0x05])
    (himm : 2 ≤ w.toNat / 2 ^ 8 % 2 ^ 8) : ∃ e, decodeWord w = .error e :=
  decodeWord_error_of_illegal fun _ => .inr (.inr (.inr (.inl ⟨hop, himm⟩)))

/-- Settles O25: the words by evaluation and by `decodeWord_error_of_wide_imm`, the effect as a setter's. -/
theorem setModeEffect : Obligations.SetModeEffect :=
  ⟨by decide, by decide, fun _ hop => decodeWord_error_of_wide_imm (by rw [hop]; decide),
    fun s _ => ⟨_, exec_of_setterRuns rfl, setterRan_complete s _⟩⟩

/-- Settles O26: the words by evaluation and by `decodeWord_error_of_wide_imm`, the effect as a setter's. -/
theorem setPolicyEffect : Obligations.SetPolicyEffect :=
  ⟨by decide, by decide, fun _ hop => decodeWord_error_of_wide_imm (by rw [hop]; decide),
    fun s _ => ⟨_, exec_of_setterRuns rfl, setterRan_complete s _⟩⟩

/-- Settles O27: with the test hooks as a setter, without them by `exec_illegal`. -/
theorem setForceFailEffect : Obligations.SetForceFailEffect :=
  ⟨by decide, by decide, fun _ hop => decodeWord_error_of_wide_imm (by rw [hop]; decide), fun s _ =>
    ⟨fun h => ⟨_, exec_of_setterRuns h, setterRan_complete s _⟩,
      fun h => ⟨_, exec_illegal h, onlyCompletes_complete s _ _ rfl⟩⟩⟩

/-! ## The setters of one byte -/

/-- The word with opcode `op`, `v` in bits 15:8, and every other bit 0 (R40): the two bytes share no bit, so
their `or` is their sum. -/
theorem or_shiftLeft_eq_cmdWord (op v : Byte) :
    op.setWidth 32 ||| (v.setWidth 32 <<< 8) = cmdWord op v false := by
  have hop := op.isLt
  have hv := v.isLt
  apply BitVec.eq_of_toNat_eq
  simp only [cmdWord_toNat, BitVec.toNat_or, BitVec.toNat_shiftLeft, BitVec.toNat_setWidth]
  rw [Nat.mod_eq_of_lt (by omega), Nat.mod_eq_of_lt (b := 2 ^ 32) (by omega), Nat.shiftLeft_eq,
    Nat.mod_eq_of_lt (by omega), Nat.mul_comm, Nat.or_comm, ← Nat.two_pow_add_eq_or_of_lt hop]
  simp [Nat.add_comm]

section

variable (op imm : Byte) (media : Bool)

@[simp] theorem cmdOp_cmdWord : cmdOp (cmdWord op imm media) = op := by
  apply BitVec.eq_of_toNat_eq
  have hop := op.isLt
  rw [cmdOp_toNat, cmdWord_toNat]
  omega

@[simp] theorem cmdImm_cmdWord : cmdImm (cmdWord op imm media) = imm := by
  apply BitVec.eq_of_toNat_eq
  have hop := op.isLt
  have himm := imm.isLt
  rw [cmdImm_toNat, cmdWord_toNat]
  omega

@[simp] theorem cmdRsv_cmdWord : cmdRsv (cmdWord op imm media) = 0 := by
  apply BitVec.eq_of_toNat_eq
  have hop := op.isLt
  have himm := imm.isLt
  have hmedia := media.toNat_lt
  rw [cmdRsv_toNat, cmdWord_toNat]
  exact Nat.div_eq_of_lt (by omega)

@[simp] theorem cmdMedia_cmdWord : cmdMedia (cmdWord op imm media) = media := by
  have hop := op.isLt
  have himm := imm.isLt
  rw [Bool.eq_iff_iff, cmdMedia_eq_true_iff, cmdMedia_toNat, cmdWord_toNat, ← Bool.toNat_eq_one]
  have hmedia := media.toNat_lt
  omega

end

/-- Settles O28: each word is its fields by `or_shiftLeft_eq_cmdWord`, the effects are a setter's. -/
theorem setMarkerAndXkeyEffect : Obligations.SetMarkerAndXkeyEffect := by
  intro s v
  refine ⟨?_, ?_, ⟨_, exec_of_setterRuns rfl, setterRan_complete s _⟩,
    ⟨_, exec_of_setterRuns rfl, setterRan_complete s _⟩⟩
  · refine (congrArg decodeWord (or_shiftLeft_eq_cmdWord 0x06 v)).trans ?_
    simp [decodeWord, decodeImm]
  · refine (congrArg decodeWord (or_shiftLeft_eq_cmdWord 0x07 v)).trans ?_
    simp [decodeWord, decodeImm]

end Sys2Proof.Machine
end

section
/-! SUPPORT. The cipher engine family: the counter as the big-endian number of its bytes, the two transforms
byte by byte, and the S-box, whose inverses in GF(2^8) are read off by undoing the affine map. -/

namespace Sys2Proof.Machine

/-! ## The counter and its keystream -/

/-- Byte `i` of a block is digit `15 - i` of its number to base 256. -/
theorem blockByte_toNat (B : Bytes16) (i : Nat) :
    (blockByte B i).toNat = B.toNat / 2 ^ (8 * (15 - i)) % 256 := by
  rw [blockByte, BitVec.extractLsb'_toNat, Nat.shiftRight_eq_div_pow]

/-- The first `k` bytes of a block, read big-endian (R57), are its number without the `16 - k` low bytes. -/
theorem foldl_blockByte_eq_div (S : Bytes16) {k : Nat} (hk : k ≤ 16) :
    (List.range k).foldl (fun x i => 256 * x + (blockByte S i).toNat) 0 =
      S.toNat / 2 ^ (8 * (16 - k)) := by
  induction k with
  | zero => exact (Nat.div_eq_of_lt S.isLt).symm
  | succ k ih =>
    have hpow : 2 ^ (8 * (16 - k)) = 2 ^ (8 * (15 - k)) * 256 := by
      rw [show 8 * (16 - k) = 8 * (15 - k) + 8 by omega, Nat.pow_add]
    rw [List.range_succ, List.foldl_append, ih (by omega), hpow, ← Nat.div_div_eq_div_mul,
      show 16 - (k + 1) = 15 - k by omega]
    simp only [List.foldl_cons, List.foldl_nil, blockByte_toNat]
    exact Nat.div_add_mod _ 256

theorem ctrAdd_zero (S : Bytes16) : ctrAdd S 0 = S := by
  simp [ctrAdd_eq_add]

theorem ctrAdd_ctrAdd (S : Bytes16) (j k : Nat) : ctrAdd (ctrAdd S j) k = ctrAdd S (j + k) := by
  simp only [ctrAdd_eq_add, BitVec.ofNat_add, BitVec.add_assoc]

/-- Settles O42: all 16 bytes of `foldl_blockByte_eq_div`, and addition in 128-bit words. -/
theorem counterArithmetic : Obligations.CounterArithmetic :=
  fun S j k => ⟨by simpa using (foldl_blockByte_eq_div S (Nat.le_refl 16)).symm, ctrAdd_toNat S j,
    ctrAdd_ctrAdd S j k⟩

/-- Settles O43: `keystream_getD` reads the byte off the concatenation of the blocks. -/
theorem keystreamAlignment : Obligations.KeystreamAlignment :=
  fun E K S n => ⟨keystream_length E K S n, fun _ hi => keystream_getD E K S hi, ctrAdd_zero S⟩

/-- Settles O44: each transform by its own byte lemma, `ctrXor_getD` and `legacyXor_getD`. -/
theorem transformBytes : Obligations.TransformBytes :=
  fun E K S X P => ⟨ctrXor_length E K S P, legacyXor_length X P,
    fun _ hi => ⟨ctrXor_getD E K S hi, legacyXor_getD X hi⟩⟩

/-! ## The S-box -/

/-- The inverse of the affine map of R65. -/
def sboxAffineInv (b : Byte) : Byte := b.rotateLeft 1 ^^^ b.rotateLeft 3 ^^^ b.rotateLeft 6 ^^^ 0x05

/-- The inverse in GF(2^8) of the index `x`, read off the S-box by undoing the affine map. -/
def gfInv (x : Byte) : Byte := sboxAffineInv (sbox x)

theorem sboxAffine_sboxAffineInv : ∀ b : Byte, sboxAffine (sboxAffineInv b) = b := by decide +kernel

/-- The table's entries, with the affine map undone, are the inverses of their indices (R65). -/
theorem gfMul_gfInv : ∀ x : Byte, x ≠ 0 → gfMul x (gfInv x) = 1 := by decide +kernel

theorem gfInv_zero : gfInv 0 = 0 := by decide

/-- Settles O48: `gfInv` undoes the affine map, so what is left to check is that it is the inverse. -/
theorem sboxIsInverseThenAffine : Obligations.SboxIsInverseThenAffine := by
  refine ⟨by decide, by decide, fun x => ⟨gfInv x, gfMul_gfInv x, ?_, ?_⟩⟩
  · rintro rfl
    exact gfInv_zero
  · exact (sboxAffine_sboxAffineInv (sbox x)).symm

end Sys2Proof.Machine
end

section
/-! SUPPORT. The frame commands family: the classification of a frame, the first contract violation and the
missing provisioning as one equation each, and the bytes and registers that a processed frame leaves. -/

namespace Sys2Proof.Machine

/-! ## Classification of a frame -/

theorem isKeyFrame_iff (md : Media) (P : Bytes) : isKeyFrame md P = true ↔
    md = .video ∧ P.length ≥ 1 ∧ (P.getD 0 0).getLsbD 0 = false := by
  cases P with
  | nil => simp [isKeyFrame]
  | cons b P => simp [isKeyFrame]

/-- Settles O40: by `isKeyFrame_iff`; the definition does not look past the first byte. -/
theorem keyFrameHeuristic : Obligations.KeyFrameHeuristic :=
  ⟨isKeyFrame_iff, fun _ _ _ _ => rfl⟩

/-- Settles O41: one case for each policy. -/
theorem encryptionPolicy : Obligations.EncryptionPolicy := by
  intro p md P
  cases p with
  | always => simp [shouldEncrypt]
  | keyframeOnly => simp [shouldEncrypt]

/-! ## The checks of a frame command -/

section

variable {o : Staging}

theorem bufferFault_of_not_rangesFit (h : ¬ RangesFit o) : bufferFault o = some .range := by
  rcases bufferFault_cases o with ⟨-, e⟩ | ⟨hfit, -⟩ | ⟨hfit, -⟩
  · exact e
  · exact absurd hfit h
  · exact absurd hfit h

theorem bufferFault_of_buffersOverlap (hfit : RangesFit o) (h : BuffersOverlap o) :
    bufferFault o = some .overlap := by
  rcases bufferFault_cases o with ⟨hn, -⟩ | ⟨-, -, e⟩ | ⟨-, hn, -⟩
  · exact absurd hfit hn
  · exact e
  · exact absurd h hn

theorem bufferFault_eq_none (hfit : RangesFit o) (h : ¬ BuffersOverlap o) : bufferFault o = none := by
  rcases bufferFault_cases o with ⟨hn, -⟩ | ⟨-, hov, -⟩ | ⟨-, -, e⟩
  · exact absurd hfit hn
  · exact absurd hov h
  · exact e

theorem encContract_of_size_ne (h : o.outLen.toNat ≠ o.inLen.toNat + 1) :
    encContract o = some .encSize := if_pos h

theorem encContract_of_size_eq (h : o.outLen.toNat = o.inLen.toNat + 1) :
    encContract o = bufferFault o := if_neg (not_not_intro h)

theorem decContract_of_size_ne (h : o.outLen.toNat + 1 ≠ o.inLen.toNat) :
    decContract o = some .decSize := if_pos h

theorem decContract_of_size_eq (h : o.outLen.toNat + 1 = o.inLen.toNat) :
    decContract o = bufferFault o := if_neg (not_not_intro h)

end

section

variable {s : State} (md : Media)

/-- A violated contract of `ENCRYPT` goes fatal, provisioned or not (R69, R92). -/
theorem exec_encrypt_violation {cause : FatalCause} (hrole : s.params.role = .enc)
    (hforce : s.cfg.forceFail = false) (h : encContract s.snap.ops = some cause) :
    ∃ t, exec (.encrypt md) s = .next t ∧ OnlyGoesFatal s t cause :=
  ⟨_, by simp [exec, execEncrypt, hrole, hforce, h], onlyGoesFatal_raiseFatal s cause⟩

/-- A violated contract of `DECRYPT` goes fatal, provisioned or not (R70, R92). -/
theorem exec_decrypt_violation {cause : FatalCause} (hrole : s.params.role = .dec)
    (hforce : s.cfg.forceFail = false) (h : decContract s.snap.ops = some cause) :
    ∃ t, exec (.decrypt md) s = .next t ∧ OnlyGoesFatal s t cause :=
  ⟨_, by simp [exec, execDecrypt, hrole, hforce, h], onlyGoesFatal_raiseFatal s cause⟩

theorem exec_encrypt_unprovisioned (hrole : s.params.role = .enc) (hforce : s.cfg.forceFail = false)
    (h : encContract s.snap.ops = none) (hprov : ¬ Provisioned s.cfg) :
    ∃ t, exec (.encrypt md) s = .next t ∧ OnlyCompletes s t .notProvisioned .none 0 := by
  rw [← provisioned_eq_true] at hprov
  exact ⟨_, by simp [exec, execEncrypt, hrole, hforce, h, hprov],
    onlyCompletes_complete s .notProvisioned .none (r := 0) rfl⟩

theorem exec_decrypt_unprovisioned (hrole : s.params.role = .dec) (hforce : s.cfg.forceFail = false)
    (h : decContract s.snap.ops = none) (hprov : ¬ Provisioned s.cfg) :
    ∃ t, exec (.decrypt md) s = .next t ∧ OnlyCompletes s t .notProvisioned .none 0 := by
  rw [← provisioned_eq_true] at hprov
  exact ⟨_, by simp [exec, execDecrypt, hrole, hforce, h, hprov],
    onlyCompletes_complete s .notProvisioned .none (r := 0) rfl⟩

end

/-- Settles O34: the contract answers the first violation, and `exec_encrypt_violation` its effect. -/
theorem encContractViolations : Obligations.EncContractViolations := by
  intro s md hrole hforce
  refine ⟨fun hlen => ?_, fun hlen hfit => ?_, fun hlen hfit hov => ?_⟩
  · exact exec_encrypt_violation md hrole hforce (encContract_of_size_ne hlen)
  · exact exec_encrypt_violation md hrole hforce
      ((encContract_of_size_eq hlen).trans (bufferFault_of_not_rangesFit hfit))
  · exact exec_encrypt_violation md hrole hforce
      ((encContract_of_size_eq hlen).trans (bufferFault_of_buffersOverlap hfit hov))

/-- Settles O35: the contract answers the first violation, and `exec_decrypt_violation` its effect. -/
theorem decContractViolations : Obligations.DecContractViolations := by
  intro s md hrole hforce
  refine ⟨fun hlen => ?_, fun hlen hfit => ?_, fun hlen hfit hov => ?_⟩
  · exact exec_decrypt_violation md hrole hforce (decContract_of_size_ne hlen)
  · exact exec_decrypt_violation md hrole hforce
      ((decContract_of_size_eq hlen).trans (bufferFault_of_not_rangesFit hfit))
  · exact exec_decrypt_violation md hrole hforce
      ((decContract_of_size_eq hlen).trans (bufferFault_of_buffersOverlap hfit hov))

/-- Settles O36: the contract holds, so the provisioning is the check that ends either command. -/
theorem framesNeedProvisioning : Obligations.FramesNeedProvisioning := by
  intro s md hforce hfit hov hprov
  have hbuf := bufferFault_eq_none hfit hov
  exact ⟨fun hrole hlen =>
      exec_encrypt_unprovisioned md hrole hforce ((encContract_of_size_eq hlen).trans hbuf) hprov,
    fun hrole hlen =>
      exec_decrypt_unprovisioned md hrole hforce ((decContract_of_size_eq hlen).trans hbuf) hprov⟩

/-! ## What `ENCRYPT` leaves -/

/-- The summary is due after the frame that follows 299 others (R81). -/
theorem addFrame_frames_eq_summaryPeriod (kf : Bool) (elapsed : Word) (t : Stats) :
    (t.addFrame kf elapsed).frames.toNat = Config.summaryPeriod ↔ t.frames.toNat + 1 = 300 := by
  show (t.frames + 1).toNat = 300 ↔ _
  bv_omega

theorem frameStats_irqPend_eq (md : Media) (P : Bytes) (s : State) : (frameStats md P s).irqPend =
    if md = .video ∧ s.stats.frames.toNat + 1 = 300 then s.irqPend ||| irqSummary else s.irqPend := by
  cases md with
  | audio => rfl
  | video =>
    rw [frameStats]
    rcases statsUpdate_cases (isKeyFrame .video P) s _ rfl with ⟨hdue, e⟩ | ⟨hdue, e⟩
    · simp [e, (addFrame_frames_eq_summaryPeriod ..).not.mp hdue]
    · simp [e, (addFrame_frames_eq_summaryPeriod ..).mp hdue]

/-- The pending bits that a completed `ENCRYPT` sets (R81, R86): `DONE`, and `SUMMARY` when it is due. -/
theorem encryptFrame_irqPend (md : Media) (s : State) : (encryptFrame md s).irqPend =
    s.irqPend ||| if md = .video ∧ s.stats.frames.toNat + 1 = 300 then 0b0011 else 0b0001 := by
  rw [encryptFrame_eq, complete_irqPend, frameStats_irqPend_eq]
  split
  · exact BitVec.or_assoc ..
  · rfl

/-- A completed `ENCRYPT` answers the number of bytes it has written (R72, R86). -/
theorem encryptFrame_completedWith (md : Media) {s : State} (h : s.snap.ops.inLen.toNat + 1 < 2 ^ 32) :
    CompletedWith s (encryptFrame md s) .ok .none (s.snap.ops.inLen.toNat + 1)
      (if md = .video ∧ s.stats.frames.toNat + 1 = 300 then 0b0011 else 0b0001) :=
  ⟨by simp, by simp, by simp, by simp, by simp,
    by rw [encryptFrame_result, BitVec.toNat_ofNat, Nat.mod_eq_of_lt h], encryptFrame_irqPend md s⟩

theorem encryptFrame_sameElsewhere (md : Media) (s : State) : SameElsewhere s (encryptFrame md s) := by
  simp [SameElsewhere]

/-- The bytes of an encrypted frame, and `MARKER` behind them (R73). -/
theorem encryptFrame_read_encrypted {md : Media} {s : State} (h : FrameEncrypted s md) :
    (∀ j < s.snap.ops.inLen.toNat, (encryptFrame md s).mem.read (s.snap.ops.outAddr.toNat + j) =
      s.mem.read (s.snap.ops.inAddr.toNat + j) ^^^ padByte s.cfg j) ∧
    (encryptFrame md s).mem.read (s.snap.ops.outAddr.toNat + s.snap.ops.inLen.toNat) = s.cfg.marker := by
  have hsnoc := read_memWrite_snoc s.mem s.snap.ops.outAddr.toNat (transform s.cfg (payload s)) s.cfg.marker
  rw [← encFrame_encrypted h, transform_length, payload_length, ← encryptFrame_mem] at hsnoc
  refine ⟨fun j hj => ?_, hsnoc.2⟩
  rw [hsnoc.1 j hj, transform_getD _ (by rwa [payload_length]), payload_getD s hj]

/-- The bytes of a frame that is passed through, and trailer 0 behind them (R73). -/
theorem encryptFrame_read_passed {md : Media} {s : State} (h : ¬ FrameEncrypted s md) :
    (∀ j < s.snap.ops.inLen.toNat, (encryptFrame md s).mem.read (s.snap.ops.outAddr.toNat + j) =
      s.mem.read (s.snap.ops.inAddr.toNat + j)) ∧
    (encryptFrame md s).mem.read (s.snap.ops.outAddr.toNat + s.snap.ops.inLen.toNat) = 0 := by
  have hsnoc := read_memWrite_snoc s.mem s.snap.ops.outAddr.toNat (payload s) 0
  rw [← encFrame_passed h, payload_length, ← encryptFrame_mem] at hsnoc
  exact ⟨fun j hj => (hsnoc.1 j hj).trans (payload_getD s hj), hsnoc.2⟩

/-- Settles O37: the registers and the bytes of `encryptFrame`, each by its lemma. -/
theorem encryptFrameResult : Obligations.EncryptFrameResult := by
  rintro s md n hready rfl
  have ⟨_, _, hout, _⟩ := hready
  have hlen : s.snap.ops.inLen.toNat + 1 < 2 ^ 32 := hout ▸ s.snap.ops.outLen.isLt
  exact ⟨_, exec_encrypt_ready md hready, encryptFrame_completedWith md hlen, encryptFrame_cfg md s,
    encryptFrame_sameElsewhere md s, encryptFrame_read_encrypted, encryptFrame_read_passed,
    sameMemoryOutside_memWrite (by simp) (encryptFrame_mem md s)⟩

/-! ## What `DECRYPT` leaves -/

section

variable {out : Bytes} {code : Code} {cause : Cause} {r m : Nat} {s : State}

theorem finishDecrypt_sameTelemetry : SameTelemetry s (finishDecrypt out code cause r s) :=
  ⟨rfl, rfl, rfl⟩

theorem finishDecrypt_sameElsewhere : SameElsewhere s (finishDecrypt out code cause r s) :=
  ⟨rfl, rfl, rfl, rfl, rfl, rfl⟩

/-- `DECRYPT` changes no byte outside its output (R28, R74). -/
theorem finishDecrypt_sameMemoryOutside (h : out.length = m) :
    SameMemoryOutside s (finishDecrypt out code cause r s) s.snap.ops.outAddr.toNat m :=
  sameMemoryOutside_memWrite h rfl

theorem finishDecrypt_completedWith (h : r < 2 ^ 32) :
    CompletedWith s (finishDecrypt out code cause r s) code cause r 0b0001 :=
  ⟨rfl, rfl, rfl, rfl, rfl, (BitVec.toNat_ofNat ..).trans (Nat.mod_eq_of_lt h), rfl⟩

theorem finishDecrypt_read {j : Nat} (h : j < out.length) :
    (finishDecrypt out code cause r s).mem.read (s.snap.ops.outAddr.toNat + j) = out.getD j 0 :=
  (read_memWrite_inside s.mem _ out h).trans (List.getD_eq_getElem _ _ h).symm

/-- The output of the pass-through branch: the input as it stands (R74). -/
theorem finishDecrypt_read_copied : ∀ j < m,
    (finishDecrypt (memRead s.mem s.snap.ops.inAddr.toNat m) code cause r s).mem.read
      (s.snap.ops.outAddr.toNat + j) = s.mem.read (s.snap.ops.inAddr.toNat + j) := by
  intro j hj
  rw [finishDecrypt_read (by simpa using hj), memRead_getD _ _ hj]

/-- The output of every other branch: the transformed input (R74). -/
theorem finishDecrypt_read_transformed : ∀ j < m,
    (finishDecrypt (transform s.cfg (memRead s.mem s.snap.ops.inAddr.toNat m)) code cause r s).mem.read
      (s.snap.ops.outAddr.toNat + j) =
        s.mem.read (s.snap.ops.inAddr.toNat + j) ^^^ padByte s.cfg j := by
  intro j hj
  rw [finishDecrypt_read (by simpa using hj), transform_getD _ (by simpa using hj),
    memRead_getD _ _ hj]

end

/-- Settles O39: `decryptFrame_cases` gives the three branches of R74, each a `finishDecrypt`; the branch
decides which clauses of the statement speak of it. -/
theorem decryptFrameResult : Obligations.DecryptFrameResult := by
  intro s md m tr hready hm ht
  have hlt : m < 2 ^ 32 := by omega
  rw [exec_decrypt_ready md hready]
  rcases decryptFrame_cases hm ht rfl with ⟨htr, e⟩ | ⟨htr, hmode, hpol, e⟩ | ⟨htr, hfails, e⟩
  · exact ⟨_, congrArg _ e, rfl, finishDecrypt_sameTelemetry, finishDecrypt_sameElsewhere,
      finishDecrypt_sameMemoryOutside (by simp),
      fun _ => finishDecrypt_read_transformed, fun h => absurd htr h.2.1,
      fun _ => finishDecrypt_completedWith hlt, fun h => absurd htr h.1⟩
  · exact ⟨_, congrArg _ e, rfl, finishDecrypt_sameTelemetry, finishDecrypt_sameElsewhere,
      finishDecrypt_sameMemoryOutside (by simp),
      fun h => by simp [htr, hmode, hpol] at h, fun _ => finishDecrypt_read_copied,
      fun _ => finishDecrypt_completedWith hlt, fun h => by simp [hmode, hpol] at h⟩
  · have hpass : ¬ (s.cfg.mode = .legacyXor ∧ s.cfg.policy = .keyframeOnly) := by
      rintro ⟨hmode, hpol⟩
      simp [hmode, hpol] at hfails
    exact ⟨_, congrArg _ e, rfl, finishDecrypt_sameTelemetry, finishDecrypt_sameElsewhere,
      finishDecrypt_sameMemoryOutside (by simp),
      fun _ => finishDecrypt_read_transformed, fun h => absurd ⟨h.1, h.2.2⟩ hpass,
      fun h => absurd h (not_or_intro htr hpass), fun _ => finishDecrypt_completedWith (by decide)⟩

end Sys2Proof.Machine
end

section
/-! SUPPORT. The output-size commands family: one equation for each size that a command answers, on the
instance of its own role. -/

namespace Sys2Proof.Machine

/-- A command that answers the size `n` leaves `n` in `RESULT`, where it fits, and changes nothing else. -/
theorem onlyCompletes_complete_ofNat (s : State) (code : Code) (cause : Cause) {n : Nat} (h : n < 2 ^ 32) :
    OnlyCompletes s (complete code cause (BitVec.ofNat 32 n) s) code cause n :=
  onlyCompletes_complete s code cause ((BitVec.toNat_ofNat ..).trans (Nat.mod_eq_of_lt h))

/-! ## The two ends of `ENC_MAXOUT` -/

section

variable (md : Media) {s : State} (hrole : s.params.role = .enc)
include hrole

/-- The largest size has no output size in 32 bits (R77). -/
theorem exec_encMaxout_sizeError (h : s.snap.ops.inLen.toNat = 2 ^ 32 - 1) :
    exec (.encMaxout md) s = .next (complete .sizeError .none 0 s) :=
  (if_neg (not_not_intro hrole)).trans (if_pos h)

theorem exec_encMaxout_ok (h : s.snap.ops.inLen.toNat ≠ 2 ^ 32 - 1) :
    exec (.encMaxout md) s =
      .next (complete .ok .none (BitVec.ofNat 32 (s.snap.ops.inLen.toNat + 1)) s) :=
  (if_neg (not_not_intro hrole)).trans (if_neg h)

end

/-- Settles O31: the word by evaluation; on the own role the size is the largest, or its successor fits
`RESULT`; on the other role by `exec_illegal`. -/
theorem encMaxoutResult : Obligations.EncMaxoutResult := by
  intro s md
  refine ⟨by cases md <;> decide, fun hrole => ?_, fun hrole => ?_⟩
  · by_cases hmax : s.snap.ops.inLen.toNat = 2 ^ 32 - 1
    · simp only [if_pos hmax]
      exact ⟨_, exec_encMaxout_sizeError md hrole hmax, onlyCompletes_complete s _ _ rfl⟩
    · have hfits : s.snap.ops.inLen.toNat + 1 < 2 ^ 32 := by omega
      simp only [if_neg hmax]
      exact ⟨_, exec_encMaxout_ok md hrole hmax, onlyCompletes_complete_ofNat s _ _ hfits⟩
  · exact ⟨_, exec_illegal (by simp [Instr.legalOn, hrole]), onlyCompletes_complete s _ _ rfl⟩

/-! ## The two ends of `DEC_MAXOUT` -/

section

variable (md : Media) {s : State} (hrole : s.params.role = .dec)
include hrole

/-- An encrypted frame holds at least its trailer (R78). -/
theorem exec_decMaxout_sizeError (h : s.snap.ops.inLen.toNat = 0) :
    exec (.decMaxout md) s = .next (complete .sizeError .none 0 s) :=
  (if_neg (not_not_intro hrole)).trans (if_pos h)

theorem exec_decMaxout_ok (h : s.snap.ops.inLen.toNat ≠ 0) :
    exec (.decMaxout md) s =
      .next (complete .ok .none (BitVec.ofNat 32 (s.snap.ops.inLen.toNat - 1)) s) :=
  (if_neg (not_not_intro hrole)).trans (if_neg h)

end

/-- Settles O32: the word by evaluation; on the own role the size is 0, or its predecessor fits `RESULT`;
on the other role by `exec_illegal`. -/
theorem decMaxoutResult : Obligations.DecMaxoutResult := by
  intro s md
  refine ⟨by cases md <;> decide, fun hrole => ?_, fun hrole => ?_⟩
  · by_cases hzero : s.snap.ops.inLen.toNat = 0
    · simp only [if_pos hzero]
      exact ⟨_, exec_decMaxout_sizeError md hrole hzero, onlyCompletes_complete s _ _ rfl⟩
    · have hfits : s.snap.ops.inLen.toNat - 1 < 2 ^ 32 := by omega
      simp only [if_neg hzero]
      exact ⟨_, exec_decMaxout_ok md hrole hzero, onlyCompletes_complete_ofNat s _ _ hfits⟩
  · exact ⟨_, exec_illegal (by simp [Instr.legalOn, hrole]), onlyCompletes_complete s _ _ rfl⟩

end Sys2Proof.Machine
end

section
/-! SUPPORT. The telemetry family: which commands and which steps leave the telemetry alone, what every step
keeps of the instance's constants, and what a video frame does to the accumulator and the summary. -/

namespace Sys2Proof.Machine

/-! ## The constants of the instance -/

theorem ExecEnd.params_eq {i : Instr} {s t : State} (h : ExecEnd i s t) : t.params = s.params := by
  cases h with
  | plain | setter | fatal => rfl
  | encrypted md => exact encryptFrame_params md s
  | decrypted md hi h =>
    obtain ⟨out, code, cause, r, e, -⟩ := decryptFrame_shape h
    rw [e]
    rfl

theorem WriteEnd.params_eq {r : Reg} {v : Word} {s t : State} (h : WriteEnd r v s t) :
    t.params = s.params := by
  cases h <;> rfl

/-- The reset input clears the instance, beside some buffer memory and some number of draws (R101). -/
theorem applyReset_eq_resetOf (s : State) :
    ∃ mem d, applyReset s = State.resetOf s.params mem s.inputs d s.lastRead := by
  unfold applyReset
  split <;> exact ⟨_, _, rfl⟩

/-- No step changes the constants of the instance (R6). -/
theorem StepEnd.params_eq {s t : State} (h : StepEnd s t) : t.params = s.params := by
  cases h with
  | idle | illegal | regRead | bufWrite | bufRead => rfl
  | command q _ _ i _ t h => exact h.params_eq
  | regWrite q k v _ _ t h => exact h.params_eq
  | reset q =>
    obtain ⟨mem, d, e⟩ := applyReset_eq_resetOf { s with inputs := q }
    rw [e]
    rfl

/-! ## What leaves the telemetry alone -/

/-- Only a ready `ENCRYPT` of a video frame changes the telemetry (R81, R84). -/
theorem ExecEnd.sameTelemetry {i : Instr} {s t : State} (h : ExecEnd i s t)
    (hne : ¬ (i = .encrypt .video ∧ EncReady s)) : SameTelemetry s t := by
  cases h with
  | plain | setter | fatal => exact ⟨rfl, rfl, rfl⟩
  | encrypted md hi hready =>
    cases md with
    | audio => exact ⟨rfl, rfl, rfl⟩
    | video => exact absurd ⟨hi, hready⟩ hne
  | decrypted md hi h =>
    obtain ⟨out, code, cause, r, e, -⟩ := decryptFrame_shape h
    rw [e]
    exact finishDecrypt_sameTelemetry

theorem WriteEnd.sameTelemetry {r : Reg} {v : Word} {s t : State} (h : WriteEnd r v s t) :
    SameTelemetry s t := by
  cases h <;> exact ⟨rfl, rfl, rfl⟩

/-- On a Decryptor a step leaves the accumulator and the summary alone, or is the reset (R84, R101). -/
theorem StepEnd.telemetry_of_dec {s t : State} (h : StepEnd s t) (hdec : s.params.role = .dec) :
    (t.stats = s.stats ∧ t.sum = s.sum) ∨ (t.stats = Stats.zero ∧ t.sum = Summary.reset) := by
  cases h with
  | idle | illegal | regRead | bufWrite | bufRead => exact .inl ⟨rfl, rfl⟩
  | command q _ _ i _ t h =>
    have hnotReady : ¬ EncReady { s with inputs := q } := fun ⟨henc, _⟩ => nomatch hdec.symm.trans henc
    obtain ⟨hstats, hsum, -⟩ := h.sameTelemetry fun ⟨_, hready⟩ => hnotReady hready
    exact .inl ⟨hstats, hsum⟩
  | regWrite q k v _ _ t h =>
    obtain ⟨hstats, hsum, -⟩ := h.sameTelemetry
    exact .inl ⟨hstats, hsum⟩
  | reset q =>
    obtain ⟨mem, d, e⟩ := applyReset_eq_resetOf { s with inputs := q }
    rw [e]
    exact .inr ⟨rfl, rfl⟩

/-- Settles O15: `DECRYPT` is no `ENCRYPT`, and a Decryptor's step leaves the telemetry alone or resets it. -/
theorem stepKeepsDecoderTelemetry : Obligations.StepKeepsDecoderTelemetry := by
  refine ⟨fun s t md h => (execEnd_of_exec h).sameTelemetry nofun, fun s t hinv h hdec => ?_⟩
  have hend := step_end h
  rw [hend.params_eq] at hdec
  obtain ⟨hstats, hsum⟩ := hinv hdec
  rcases hend.telemetry_of_dec hdec with ⟨hstats', hsum'⟩ | hreset
  · exact ⟨hstats'.trans hstats, hsum'.trans hsum⟩
  · exact hreset

/-! ## What a video frame does to the telemetry -/

/-- The accumulator with the video frame in flight counted, before any summary (R81). -/
def countedStats (s : State) : Stats :=
  s.stats.addFrame (isKeyFrame .video (payload s)) (drawElapsed s)

/-- A key frame counts in the key-frame totals and in the maximum (R81). -/
theorem countedStats_keyFrame {s : State} (h : VideoKeyFrame s) :
    (countedStats s).kframes = s.stats.kframes + 1 ∧
      (countedStats s).kfUs = s.stats.kfUs + (drawElapsed s).setWidth 64 ∧
      (countedStats s).maxUs.toNat = max s.stats.maxUs.toNat (drawElapsed s).toNat := by
  rw [countedStats, (isKeyFrame_payload s).mpr h]
  exact ⟨rfl, rfl, maxWord_toNat ..⟩

/-- Any other video frame leaves the key-frame totals and the maximum (R81). -/
theorem countedStats_otherFrame {s : State} (h : ¬ VideoKeyFrame s) :
    (countedStats s).kframes = s.stats.kframes ∧ (countedStats s).kfUs = s.stats.kfUs ∧
      (countedStats s).maxUs = s.stats.maxUs := by
  rw [countedStats, Bool.eq_false_iff.mpr ((isKeyFrame_payload s).not.mpr h)]
  exact ⟨rfl, rfl, rfl⟩

/-- Before the 300th frame a video `ENCRYPT` only counts its frame (R81). -/
theorem encryptFrame_telemetry_counting {s : State} (h : (countedStats s).frames.toNat ≠ 300) :
    (encryptFrame .video s).stats = countedStats s ∧ (encryptFrame .video s).sum = s.sum ∧
      (encryptFrame .video s).irqPend = s.irqPend ||| 0b0001 := by
  rw [encryptFrame_eq, frameStats]
  generalize memWrite _ _ _ = m
  rcases statsUpdate_cases (isKeyFrame .video (payload s)) { s with mem := m } (countedStats s) rfl
    with ⟨-, e⟩ | ⟨hdue, -⟩
  · rw [e]
    exact ⟨rfl, rfl, rfl⟩
  · exact absurd hdue h

/-- At the 300th frame a video `ENCRYPT` latches the summary and clears the accumulator (R82). -/
theorem encryptFrame_telemetry_due {s : State} (h : (countedStats s).frames.toNat = 300) :
    (encryptFrame .video s).stats = Stats.zero ∧
      (encryptFrame .video s).sum = Summary.latch s.cfg (countedStats s) s.sum ∧
      (encryptFrame .video s).irqPend = s.irqPend ||| 0b0011 := by
  rw [encryptFrame_eq, frameStats]
  generalize memWrite _ _ _ = m
  rcases statsUpdate_cases (isKeyFrame .video (payload s)) { s with mem := m } (countedStats s) rfl
    with ⟨hcounting, -⟩ | ⟨-, e⟩
  · exact absurd h hcounting
  · rw [e]
    exact ⟨rfl, rfl, BitVec.or_assoc ..⟩

/-- Every update draws one elapsed time, with or without a summary (R80). -/
theorem statsUpdate_draws (kf : Bool) (s : State) : (statsUpdate kf s).draws = s.draws + 1 := by
  rcases statsUpdate_cases kf s _ rfl with ⟨-, e⟩ | ⟨-, e⟩ <;> rw [e]

/-- Every video `ENCRYPT` draws one elapsed time (R80). -/
theorem encryptFrame_video_draws (s : State) : (encryptFrame .video s).draws = s.draws + 1 :=
  statsUpdate_draws ..

/-- Settles O38: the counted frame is `countedStats`; `ExecEnd.sameTelemetry` speaks of everything else. -/
theorem encryptTelemetry : Obligations.EncryptTelemetry := by
  refine ⟨?_, fun i s t h => (execEnd_of_exec h).sameTelemetry⟩
  rintro s _ hready rfl
  exact ⟨_, countedStats s, exec_encrypt_ready .video hready, encryptFrame_video_draws s, rfl, rfl,
    countedStats_keyFrame, countedStats_otherFrame, encryptFrame_telemetry_counting,
    encryptFrame_telemetry_due⟩

end Sys2Proof.Machine
end

section
/-! SUPPORT. The exceptions family: what each step does to the pending bits, and what the fatal state lets a
step do. -/

namespace Sys2Proof.Machine

/-! ## The bits of the interrupt registers -/

theorem getLsbD_twoPow_four {k : Nat} (hk : k < 4) (i : Nat) :
    (BitVec.twoPow 4 k).getLsbD i = decide (i = k) := by
  simp [BitVec.getLsbD_twoPow, hk, eq_comm]

@[simp] theorem getLsbD_irqDone (i : Nat) : irqDone.getLsbD i = decide (i = 0) :=
  getLsbD_twoPow_four (k := 0) (by decide) i
@[simp] theorem getLsbD_irqSummary (i : Nat) : irqSummary.getLsbD i = decide (i = 1) :=
  getLsbD_twoPow_four (k := 1) (by decide) i
@[simp] theorem getLsbD_irqFatal (i : Nat) : irqFatal.getLsbD i = decide (i = 2) :=
  getLsbD_twoPow_four (k := 2) (by decide) i
@[simp] theorem getLsbD_irqOvr (i : Nat) : irqOvr.getLsbD i = decide (i = 3) :=
  getLsbD_twoPow_four (k := 3) (by decide) i

/-- `irq` is high while some bit is both pending and enabled (R90). -/
theorem irq_eq_true_iff (s : State) :
    irq s = true ↔ ∃ i < 4, s.irqPend.getLsbD i = true ∧ s.irqEn.getLsbD i = true := by
  simp [irq, BitVec.eq_of_getLsbD_eq_iff]

theorem irq_of_irqEn_zero {s : State} (h : s.irqEn = 0) : irq s = false := by
  simp [irq, h]

/-! ## What a step does to the pending bits -/

/-- Everything a step can do to the pending bits: one of the four sources of R90 sets its bit, a completion
with or without a summary; the host or a reset clears bits (R19, R101); or they stay. -/
inductive IrqEvent (s t : State) : Prop where
  | completed (hbusy : s.status.busy = true) (hidle : t.status.busy = false)
      (hfatal : t.status.fatal = s.status.fatal) (hcount : t.sum.count = s.sum.count)
      (hpend : t.irqPend = s.irqPend ||| irqDone)
  | summarized (hbusy : s.status.busy = true) (hidle : t.status.busy = false)
      (hfatal : t.status.fatal = s.status.fatal) (hcount : t.sum.count = s.sum.count + 1)
      (hstats : t.stats = Stats.zero) (hpend : t.irqPend = s.irqPend ||| (irqDone ||| irqSummary))
  | wentFatal (hbusy : s.status.busy = true) (hidle : t.status.busy = false)
      (hfatal : t.status.fatal = true) (hcount : t.sum.count = s.sum.count)
      (hpend : t.irqPend = s.irqPend ||| irqFatal)
  | dropped (hstopped : s.status.busy = true ∨ s.status.fatal = true)
      (hq : ∃ w, s.inputs.head? = some (.regWrite s.params.regBase 4 w))
      (hstatus : t.status = s.status) (hcount : t.sum.count = s.sum.count)
      (hpend : t.irqPend = s.irqPend ||| irqOvr)
  | cleared (v : Word) (hq : s.inputs.head? = some (.regWrite (s.params.regBase + 0x14) 4 v))
      (hstatus : t.status = s.status) (hcount : t.sum.count = s.sum.count)
      (hpend : t.irqPend = s.irqPend &&& ~~~(v.extractLsb' 0 4))
  | kept (hbusy : s.status.busy = true → t.status.busy = true)
      (hfatal : t.status.fatal = s.status.fatal) (hcount : t.sum.count = s.sum.count)
      (hpend : t.irqPend = s.irqPend)
  | reset (hq : s.inputs.head? = some .reset) (hpend : t.irqPend = 0)

/-- A frame past the checks of `ENCRYPT` sets `DONE`, and `SUMMARY` with a summary (R82, R86). -/
theorem encryptFrame_irq_cases (md : Media) (s : State) :
    ((encryptFrame md s).sum.count = s.sum.count ∧
      (encryptFrame md s).irqPend = s.irqPend ||| irqDone) ∨
    ((encryptFrame md s).sum.count = s.sum.count + 1 ∧ (encryptFrame md s).stats = Stats.zero ∧
      (encryptFrame md s).irqPend = s.irqPend ||| (irqDone ||| irqSummary)) := by
  cases md with
  | audio => exact .inl ⟨rfl, rfl⟩
  | video =>
    by_cases h : (countedStats s).frames.toNat = 300
    · obtain ⟨hstats, hsum, hpend⟩ := encryptFrame_telemetry_due h
      exact .inr ⟨congrArg Summary.count hsum, hstats, hpend⟩
    · obtain ⟨-, hsum, hpend⟩ := encryptFrame_telemetry_counting h
      exact .inl ⟨congrArg Summary.count hsum, hpend⟩

/-- The pending bits that a command sets: `DONE`, `DONE` with `SUMMARY`, or `FATAL` (R82, R86, R87). -/
theorem ExecEnd.irq_cases {i : Instr} {s t : State} (h : ExecEnd i s t) :
    (t.status.fatal = s.status.fatal ∧ t.sum.count = s.sum.count ∧
      t.irqPend = s.irqPend ||| irqDone) ∨
    (t.status.fatal = s.status.fatal ∧ t.sum.count = s.sum.count + 1 ∧ t.stats = Stats.zero ∧
      t.irqPend = s.irqPend ||| (irqDone ||| irqSummary)) ∨
    (t.status.fatal = true ∧ t.sum.count = s.sum.count ∧ t.irqPend = s.irqPend ||| irqFatal) := by
  cases h with
  | plain | setter => exact .inl ⟨rfl, rfl, rfl⟩
  | fatal => exact .inr (.inr ⟨rfl, rfl, rfl⟩)
  | encrypted md =>
    have hfatal : (encryptFrame md s).status.fatal = s.status.fatal := by simp
    exact (encryptFrame_irq_cases md s).imp (⟨hfatal, ·⟩) (.inl ⟨hfatal, ·⟩)
  | decrypted md hi h =>
    obtain ⟨out, code, cause, r, e, -⟩ := decryptFrame_shape h
    rw [e]
    exact .inl ⟨rfl, rfl, rfl⟩

theorem StepEnd.irqEvent {s t : State} (h : StepEnd s t) : IrqEvent s t := by
  cases h with
  | idle | regRead | bufWrite | bufRead => exact .kept id rfl rfl rfl
  | illegal q hq hb => exact .completed hb rfl rfl rfl rfl
  | command q hq hb i hd t h =>
    obtain ⟨hidle, -⟩ := h.busy_staging
    rcases h.irq_cases with ⟨hfatal, hcount, hpend⟩ | ⟨hfatal, hcount, hstats, hpend⟩ |
      ⟨hfatal, hcount, hpend⟩
    · exact .completed hb hidle hfatal hcount hpend
    · exact .summarized hb hidle hfatal hcount hstats hpend
    · exact .wentFatal hb hidle hfatal hcount hpend
  | regWrite q k v hk hq t h =>
    have hhead := congrArg List.head? hq
    cases h with
    | accepted => exact .kept (fun _ => rfl) rfl rfl rfl
    | dropped hr h =>
      rw [regAt_eq_cmd hr] at hhead
      exact .dropped h ⟨v, hhead⟩ rfl rfl rfl
    | cleared hr =>
      rw [regAt_eq_irqPend hr] at hhead
      exact .cleared v hhead rfl rfl rfl
    | enabled | staged => exact .kept id rfl rfl rfl
  | reset q hq =>
    obtain ⟨mem, d, e⟩ := applyReset_eq_resetOf { s with inputs := q }
    exact .reset (congrArg List.head? hq) (congrArg State.irqPend e)

/-! ## The sources of the pending bits -/

section

variable {s t : State} (h : IrqEvent s t)
include h

/-- A bit is newly set by its own source only: `DONE` by a completion, `SUMMARY` by an emitted summary, `FATAL`
by an entry to the fatal state, `OVR` by a dropped `CMD` write (R90). -/
theorem IrqEvent.source_of_newly_set {i : Nat} (hclear : s.irqPend.getLsbD i = false)
    (hset : t.irqPend.getLsbD i = true) :
    (i = 0 ∧ s.status.busy = true ∧ t.status.busy = false ∧ t.status.fatal = s.status.fatal) ∨
    (i = 1 ∧ s.status.busy = true ∧ t.sum.count = s.sum.count + 1 ∧ t.stats = Stats.zero) ∨
    (i = 2 ∧ s.status.busy = true ∧ t.status.fatal = true ∧ t.status.busy = false) ∨
    (i = 3 ∧ (s.status.busy = true ∨ s.status.fatal = true) ∧
      ∃ w, s.inputs.head? = some (.regWrite s.params.regBase 4 w)) := by
  cases h with
  | completed hbusy hidle hfatal _ hpend =>
    have hi : i = 0 := by simpa [hpend, hclear] using hset
    exact .inl ⟨hi, hbusy, hidle, hfatal⟩
  | summarized hbusy hidle hfatal hcount hstats hpend =>
    have hi : i = 0 ∨ i = 1 := by simpa [hpend, hclear] using hset
    exact hi.imp (⟨·, hbusy, hidle, hfatal⟩) (.inl ⟨·, hbusy, hcount, hstats⟩)
  | wentFatal hbusy hidle hfatal _ hpend =>
    have hi : i = 2 := by simpa [hpend, hclear] using hset
    exact .inr (.inr (.inl ⟨hi, hbusy, hfatal, hidle⟩))
  | dropped hstopped hq _ _ hpend =>
    have hi : i = 3 := by simpa [hpend, hclear] using hset
    exact .inr (.inr (.inr ⟨hi, hstopped, hq⟩))
  | cleared _ _ _ _ hpend | kept _ _ _ hpend | reset _ hpend => simp [hpend, hclear] at hset

/-- A completion leaves `DONE` set (R86, R90). -/
theorem IrqEvent.done_set (hr : s.inputs.head? ≠ some .reset) (hbusy : s.status.busy = true)
    (hidle : t.status.busy = false) (hft : t.status.fatal = false) :
    t.irqPend.getLsbD 0 = true := by
  cases h with
  | completed _ _ _ _ hpend | summarized _ _ _ _ _ hpend => simp [hpend]
  | wentFatal _ _ hfatal => exact absurd hfatal (by simp [hft])
  | dropped _ _ hstatus | cleared _ _ hstatus => simp [hstatus, hbusy] at hidle
  | kept hkeep => exact absurd (hkeep hbusy) (by simp [hidle])
  | reset hq => exact absurd hq hr

/-- An emitted summary leaves `SUMMARY` set (R82, R90). -/
theorem IrqEvent.summary_set (hr : s.inputs.head? ≠ some .reset)
    (hne : t.sum.count ≠ s.sum.count) : t.irqPend.getLsbD 1 = true := by
  cases h with
  | summarized _ _ _ _ _ hpend => simp [hpend]
  | completed _ _ _ hcount | wentFatal _ _ _ hcount | dropped _ _ _ hcount | cleared _ _ _ hcount
  | kept _ _ hcount => exact absurd hcount hne
  | reset hq => exact absurd hq hr

/-- An entry to the fatal state leaves `FATAL` set (R87, R90). -/
theorem IrqEvent.fatal_set (hr : s.inputs.head? ≠ some .reset)
    (hne : t.status.fatal ≠ s.status.fatal) : t.irqPend.getLsbD 2 = true := by
  cases h with
  | wentFatal _ _ _ _ hpend => simp [hpend]
  | completed _ _ hfatal | summarized _ _ hfatal | kept _ hfatal => exact absurd hfatal hne
  | dropped _ _ hstatus | cleared _ _ hstatus => exact absurd (congrArg Status.fatal hstatus) hne
  | reset hq => exact absurd hq hr

/-- A pending bit stays, but for a reset or a host write of 1 to it (R91). -/
theorem IrqEvent.pending_kept {i : Nat} (hset : s.irqPend.getLsbD i = true) :
    t.irqPend.getLsbD i = true ∨ s.inputs.head? = some .reset ∨
      ∃ v : Word, s.inputs.head? = some (.regWrite (s.params.regBase + 0x14) 4 v) ∧
        v.getLsbD i = true := by
  cases h with
  | completed _ _ _ _ hpend | summarized _ _ _ _ _ hpend | wentFatal _ _ _ _ hpend
  | dropped _ _ _ _ hpend | kept _ _ _ hpend => exact .inl (by simp [hpend, hset])
  | cleared v hq _ _ hpend =>
    have hi : i < 4 := BitVec.lt_of_getLsbD hset
    cases hv : v.getLsbD i with
    | true => exact .inr (.inr ⟨v, hq, hv⟩)
    | false => exact .inl (by simp [hpend, hset, hv, hi])
  | reset hq => exact .inr (.inl hq)

end

/-- A `CMD` write is dropped while a command is in flight or in the fatal state, and sets `OVR` (R14, R88). -/
theorem step_cmd_dropped {s : State} {rest : List Input} {w : Word}
    (h : s.status.busy = true ∨ s.status.fatal = true)
    (hq : s.inputs = .regWrite s.params.regBase 4 w :: rest) :
    step s = .next (setPending irqOvr { s with inputs := rest }) :=
  (step_regWrite (k := 0) (by decide) hq).trans (congrArg _ (writeCmd_dropped w h))

/-- A dropped `CMD` write leaves `OVR` set (R90). -/
theorem ovr_set_of_step {s t : State} (hstep : step s = .next t)
    (h : s.status.busy = true ∨ s.status.fatal = true)
    (hq : ∃ w, s.inputs.head? = some (.regWrite s.params.regBase 4 w)) :
    t.irqPend.getLsbD 3 = true := by
  obtain ⟨w, hw⟩ := hq
  obtain ⟨rest, hrest⟩ := List.head?_eq_some_iff.mp hw
  cases hstep.symm.trans (step_cmd_dropped h hrest)
  simp

/-- Settles O55: `irq` by `irq_eq_true_iff`; each bit by what `IrqEvent` says of its source. -/
theorem interruptSources : Obligations.InterruptSources := by
  refine ⟨irq_eq_true_iff, fun s t hstep => ?_⟩
  have h : IrqEvent s t := (step_end hstep).irqEvent
  refine ⟨fun hc hs => ?_, fun hc hs => ?_, fun hc hs => ?_, fun hc hs => ?_, fun hr =>
    ⟨fun hbusy _ => h.done_set hr hbusy, h.summary_set hr, h.fatal_set hr, ovr_set_of_step hstep⟩⟩
  all_goals simpa using h.source_of_newly_set hc hs

/-! ## Enabling a pending bit -/

/-- Enabling a pending bit asserts `irq` (R91). -/
theorem irq_of_enabled {s : State} {v : Word} {i : Nat} (hpend : s.irqPend.getLsbD i = true)
    (hv : v.getLsbD i = true) : irq (writeReg .irqEn v s) = true := by
  have hi : i < 4 := BitVec.lt_of_getLsbD hpend
  exact (irq_eq_true_iff _).mpr ⟨i, hi, hpend, by simp [writeReg, hi, hv]⟩

/-- Settles O56: a step keeps the bit by `IrqEvent.pending_kept`; the write of `IRQ_EN` by `irq_of_enabled`. -/
theorem pendingUntilCleared : Obligations.PendingUntilCleared :=
  ⟨fun _ _ _ hstep => (step_end hstep).irqEvent.pending_kept,
    fun _ _ _ _ hpend hv hq => ⟨_, step_regWrite (k := 4) (by decide) hq, irq_of_enabled hpend hv⟩,
    fun _ => irq_of_irqEn_zero, rfl⟩

/-! ## The fatal state -/

theorem step_reset {s : State} {rest : List Input} (hq : s.inputs = .reset :: rest) :
    step s = .next (applyReset { s with inputs := rest }) := by
  show nextStep s = _
  rw [nextStep, hq]
  rfl

/-- In the fatal state only reset changes what the host reads of the engine: no command runs and none is
accepted (R88). -/
theorem StepEnd.frame_of_fatal {s t : State} (h : StepEnd s t) (hfatal : s.status.fatal = true)
    (hidle : s.status.busy = false) (hr : s.inputs.head? ≠ some .reset) :
    t.status = s.status ∧ t.cfg = s.cfg ∧ SameTelemetry s t ∧ t.result = s.result ∧
      t.snap = s.snap := by
  cases h with
  | idle | regRead | bufWrite | bufRead => exact ⟨rfl, rfl, ⟨rfl, rfl, rfl⟩, rfl, rfl⟩
  | illegal q hq hb | command q hq hb => exact absurd hb (by simp [hidle])
  | regWrite q k v hk hq t h =>
    cases h with
    | accepted _ _ hf => exact absurd hfatal (by simp [show s.status.fatal = false from hf])
    | dropped | enabled | cleared | staged => exact ⟨rfl, rfl, ⟨rfl, rfl, rfl⟩, rfl, rfl⟩
  | reset q hq => exact absurd (congrArg List.head? hq) hr

/-- Settles O54: the frame by `StepEnd.frame_of_fatal`, the `CMD` write by `step_cmd_dropped`, the other
accesses and the reset by what their steps do. -/
theorem fatalStateIsSticky : Obligations.FatalStateIsSticky := by
  refine ⟨fun s hhead => ?_, fun s hfatal hidle hr => ?_⟩
  · obtain ⟨rest, hq⟩ := List.head?_eq_some_iff.mp hhead
    obtain ⟨mem, d, e⟩ := applyReset_eq_resetOf { s with inputs := rest }
    exact ⟨_, step_reset hq, congrArg (·.status.fatal) e⟩
  · exact ⟨fun t hstep => (step_end hstep).frame_of_fatal hfatal hidle hr,
      fun _ _ => step_cmd_dropped (.inr hfatal),
      fun _ _ _ hk => ⟨step_regRead hk, fun hq _ => step_regWrite hk hq⟩⟩

end Sys2Proof.Machine
end

section
/-! SUPPORT. The encoder and the decoder undo each other, and a word decodes exactly where it selects a row of
the table of R42. -/

namespace Sys2Proof.Machine

/-! ## Decoding an encoded command -/

section

variable (op : Byte)

@[simp] theorem decodeBare_cmdWord (i : Instr) : decodeBare (cmdWord op 0#8 false) i = .ok i := by
  simp [decodeBare]

@[simp] theorem decodeFlag_cmdWord (b : Bool) (f : Bool → Instr) :
    decodeFlag (cmdWord op (flagImm b) false) f = .ok (f b) := by
  cases b <;> simp [decodeFlag, flagImm]

@[simp] theorem decodeImm_cmdWord (v : Byte) (f : Byte → Instr) :
    decodeImm (cmdWord op v false) f = .ok (f v) := by
  simp [decodeImm]

@[simp] theorem decodeMedia_cmdWord (media : Bool) (f : Media → Instr) :
    decodeMedia (cmdWord op 0#8 media) f = .ok (f (Media.ofBit media)) := by
  simp [decodeMedia]

end

@[simp] theorem Mode.ofBit_bit (m : Mode) : Mode.ofBit m.bit = m := by cases m <;> rfl
@[simp] theorem Policy.ofBit_bit (p : Policy) : Policy.ofBit p.bit = p := by cases p <;> rfl
@[simp] theorem Media.ofBit_bit (md : Media) : Media.ofBit md.bit = md := by cases md <;> rfl

/-- Settles O3: the opcode of the word picks the row, and the row's decoder reads its operand back. -/
theorem decodeOfEncode : Obligations.DecodeOfEncode := by
  intro i
  cases i <;> simp [encode, decodeWord]

/-- Settles O7: the twelve words by evaluation. -/
theorem decodesSpecWords : Obligations.DecodesSpecWords := by
  unfold Obligations.DecodesSpecWords
  decide

/-! ## Encoding a decoded word -/

/-- A word is the word of its fields, whose reserved bits are 0 (R40). -/
theorem cmdWord_eq {w : Word} {op imm : Byte} {media : Bool} (hrsv : cmdRsv w = 0) (hop : cmdOp w = op)
    (himm : cmdImm w = imm) (hmedia : cmdMedia w = media) : cmdWord op imm media = w := by
  rw [← hop, ← himm, ← hmedia, ← word_of_fields hrsv]

@[simp] theorem Mode.bit_ofBit (b : Bool) : (Mode.ofBit b).bit = b := by cases b <;> rfl
@[simp] theorem Policy.bit_ofBit (b : Bool) : (Policy.ofBit b).bit = b := by cases b <;> rfl
@[simp] theorem Media.bit_ofBit (b : Bool) : (Media.ofBit b).bit = b := by cases b <;> rfl

/-- Settles O4: the decoder of a row answers only words whose fields are those of its command. -/
theorem encodeOfDecode : Obligations.EncodeOfDecode := by
  intro w i h
  unfold decodeWord at h
  split at h
  · cases h
  next hrsv =>
  have hword {op imm media} := cmdWord_eq (op := op) (imm := imm) (media := media) (not_not.mp hrsv)
  split at h
  case h_1 hop | h_2 hop | h_8 hop =>
    obtain ⟨himm, hmedia, rfl⟩ := decodeBare_eq_ok h
    exact hword (BitVec.eq_of_toNat_eq hop) himm hmedia
  case h_3 hop | h_4 hop | h_5 hop =>
    obtain ⟨b, himm, hmedia, rfl⟩ := decodeFlag_eq_ok h
    exact hword (BitVec.eq_of_toNat_eq hop) (by simpa using himm) hmedia
  case h_6 hop | h_7 hop =>
    obtain ⟨hmedia, rfl⟩ := decodeImm_eq_ok h
    exact hword (BitVec.eq_of_toNat_eq hop) rfl hmedia
  case h_9 hop | h_10 hop | h_11 hop | h_12 hop =>
    obtain ⟨himm, rfl⟩ := decodeMedia_eq_ok h
    exact hword (BitVec.eq_of_toNat_eq hop) himm (by simp)
  case h_13 => cases h

/-! ## The table of R42 -/

/-- The word of a command selects the command's row. -/
theorem selects_rowOf_encode (i : Instr) : Selects (encode i) (rowOf i) := by
  cases i with
  | setKey => exact Laws.TableRows.setKey
  | setSeed => exact Laws.TableRows.setSeed
  | setMode m => exact Laws.TableRows.setMode m
  | setPolicy p => exact Laws.TableRows.setPolicy p
  | setForceFail f => exact Laws.TableRows.setForceFail f
  | setMarker v => exact Laws.TableRows.setMarker v
  | setXkey v => exact Laws.TableRows.setXkey v
  | advSeed => exact Laws.TableRows.advSeed
  | encrypt md => exact Laws.TableRows.encrypt md
  | decrypt md => exact Laws.TableRows.decrypt md
  | encMaxout md => exact Laws.TableRows.encMaxout md
  | decMaxout md => exact Laws.TableRows.decMaxout md

theorem rowOf_mem_commandTable (i : Instr) : rowOf i ∈ commandTable := by
  cases i <;> simp [rowOf, commandTable]

theorem selects_rowOf_of_decodeWord {w : Word} {i : Instr} (h : decodeWord w = .ok i) :
    Selects w (rowOf i) :=
  encodeOfDecode w i h ▸ selects_rowOf_encode i

/-- A word selects a row where its masked fields are the fields of the row. -/
theorem Selects.fields {w : Word} {r : TableRow} (h : Selects w r) :
    cmdOp w &&& cmdOp r.mask = cmdOp r.value ∧ cmdImm w &&& cmdImm r.mask = cmdImm r.value ∧
      (cmdMedia w && cmdMedia r.mask) = cmdMedia r.value ∧ cmdRsv w &&& cmdRsv r.mask = cmdRsv r.value := by
  unfold Selects at h
  simp only [← h, cmdOp, cmdImm, cmdMedia, cmdRsv, BitVec.extractLsb'_and, BitVec.getLsbD_and, and_self]

/-- Every row fixes the opcode and the reserved bits. -/
theorem commandTable_mask : ∀ r ∈ commandTable,
    cmdOp r.mask = BitVec.allOnes 8 ∧ cmdRsv r.mask = BitVec.allOnes 15 ∧ cmdRsv r.value = 0 := by decide

theorem commandTable_eq_of_op_eq : ∀ r ∈ commandTable, ∀ r' ∈ commandTable,
    cmdOp r.value = cmdOp r'.value → r = r' := by decide

theorem Selects.op_rsv {w : Word} {r : TableRow} (h : Selects w r) (hr : r ∈ commandTable) :
    cmdOp w = cmdOp r.value ∧ cmdRsv w = 0 := by
  obtain ⟨hop, -, -, hrsv⟩ := h.fields
  obtain ⟨hmop, hmrsv, hvrsv⟩ := commandTable_mask r hr
  rw [hmop, BitVec.and_allOnes] at hop
  rw [hmrsv, BitVec.and_allOnes, hvrsv] at hrsv
  exact ⟨hop, hrsv⟩

/-- The immediates that the mask of a one-bit operand lets through. -/
theorem eq_flagImm_of_and_mask : ∀ v : Byte, v &&& 0xFE = 0 → v = flagImm (v.getLsbD 0) := by decide

/-- A word that selects a row is the word of a command: the row fixes its opcode, and its other fields are an
operand of the row. -/
theorem Selects.exists_encode {w : Word} {r : TableRow} (h : Selects w r) (hr : r ∈ commandTable) :
    ∃ i, encode i = w := by
  obtain ⟨hop, hrsv⟩ := h.op_rsv hr
  obtain ⟨-, himm, hmedia, -⟩ := h.fields
  have hword {imm media} := cmdWord_eq (imm := imm) (media := media) hrsv hop
  have hnoImm (hm : cmdImm r.mask = BitVec.allOnes 8) (hv : cmdImm r.value = 0) : cmdImm w = 0 := by
    rwa [hm, BitVec.and_allOnes, hv] at himm
  have hnoMedia (hm : cmdMedia r.mask = true) (hv : cmdMedia r.value = false) : cmdMedia w = false := by
    rwa [hm, Bool.and_true, hv] at hmedia
  have hflag (hm : cmdImm r.mask = 0xFE) (hv : cmdImm r.value = 0) :
      cmdImm w = flagImm ((cmdImm w).getLsbD 0) := by
    rw [hm, hv] at himm
    exact eq_flagImm_of_and_mask _ himm
  simp only [commandTable, List.mem_cons, List.not_mem_nil, or_false] at hr
  rcases hr with rfl | rfl | rfl | rfl | rfl | rfl | rfl | rfl | rfl | rfl | rfl | rfl
  · exact ⟨.setKey, hword (hnoImm rfl rfl) (hnoMedia rfl rfl)⟩
  · exact ⟨.setSeed, hword (hnoImm rfl rfl) (hnoMedia rfl rfl)⟩
  · exact ⟨.setMode (.ofBit _), hword (by simpa using hflag rfl rfl) (hnoMedia rfl rfl)⟩
  · exact ⟨.setPolicy (.ofBit _), hword (by simpa using hflag rfl rfl) (hnoMedia rfl rfl)⟩
  · exact ⟨.setForceFail _, hword (hflag rfl rfl) (hnoMedia rfl rfl)⟩
  · exact ⟨.setMarker _, hword rfl (hnoMedia rfl rfl)⟩
  · exact ⟨.setXkey _, hword rfl (hnoMedia rfl rfl)⟩
  · exact ⟨.advSeed, hword (hnoImm rfl rfl) (hnoMedia rfl rfl)⟩
  · exact ⟨.encrypt (.ofBit _), hword (hnoImm rfl rfl) (Media.bit_ofBit _).symm⟩
  · exact ⟨.decrypt (.ofBit _), hword (hnoImm rfl rfl) (Media.bit_ofBit _).symm⟩
  · exact ⟨.encMaxout (.ofBit _), hword (hnoImm rfl rfl) (Media.bit_ofBit _).symm⟩
  · exact ⟨.decMaxout (.ofBit _), hword (hnoImm rfl rfl) (Media.bit_ofBit _).symm⟩

/-- Settles O5: a decoded word selects the row of its command by O4, a word that selects a row is encoded and
decodes by O3, rows differ in the opcode that they fix, and R44 rejects what does not decode. -/
theorem wordSelectsOneRow : Obligations.WordSelectsOneRow := by
  intro w
  refine ⟨⟨fun ⟨i, hi⟩ => ⟨_, rowOf_mem_commandTable i, selects_rowOf_of_decodeWord hi⟩, ?_⟩,
    fun i hi => ⟨rowOf_mem_commandTable i, selects_rowOf_of_decodeWord hi⟩, ?_, ?_⟩
  · rintro ⟨r, hr, h⟩
    obtain ⟨i, rfl⟩ := h.exists_encode hr
    exact ⟨i, decodeOfEncode i⟩
  · intro r hr r' hr' h h'
    exact commandTable_eq_of_op_eq r hr r' hr' ((h.op_rsv hr).1.symm.trans (h'.op_rsv hr').1)
  · intro hnone role testHooks
    refine illegalWord_iff_rejected.mpr fun i hi => ?_
    exact absurd (selects_rowOf_of_decodeWord hi) (hnone _ (rowOf_mem_commandTable i))

end Sys2Proof.Machine
end

section
/-! SUPPORT. Steps and resets: which transition the next input is, and what a reset leaves of buffer memory. -/

namespace Sys2Proof.Machine

/-! ## The engine's turn -/

/-- A step takes the oldest input that waits. -/
theorem step_input {s : State} {e : Input} {rest : List Input} (hq : s.inputs = e :: rest) :
    step s = takeInput e { s with inputs := rest } := by
  show nextStep s = _
  rw [nextStep, hq]

/-- The engine's turn is next, or no input waits (R112). -/
theorem step_engineTurn {s : State} {rest : List Input}
    (hq : s.inputs = .engine :: rest ∨ (s.inputs = [] ∧ rest = [])) :
    step s = engineTurn { s with inputs := rest } := by
  rcases hq with hq | ⟨hq, rfl⟩
  · exact step_input hq
  · show nextStep s = _
    rw [nextStep, hq]
    exact congrArg engineTurn (by rw [← hq])

theorem engineTurn_busy {s : State} (h : s.status.busy = true) : engineTurn s = runCommand s := if_pos h

theorem engineTurn_idle {s : State} (h : s.status.busy = false) : engineTurn s = .next s :=
  if_neg (Bool.eq_false_iff.mp h)

/-- Settles O1: the two cases of the engine's turn. -/
theorem stepRunsDecodedCommand : Obligations.StepRunsDecodedCommand := by
  intro s rest i hq
  rw [step_engineTurn hq]
  have hturn (hbusy : s.status.busy = true) := engineTurn_busy (s := { s with inputs := rest }) hbusy
  exact ⟨fun hbusy hd => (hturn hbusy).trans (runCommand_decoded hd), fun hidle => engineTurn_idle hidle⟩

/-- What the opcode table's numbering decodes to is what the word itself decodes to (R40). -/
theorem decodeWord_tableWord {nbits w : Nat} {i : Instr} (h : decodeTableWord nbits w = some i) :
    decodeWord (tableWord nbits w) = .ok i := by
  unfold decodeTableWord at h
  split at h
  · cases hd : decodeWord (tableWord nbits w) with
    | ok j => simpa [hd, Except.toOption] using h
    | error e => simp [hd, Except.toOption] at h
  · cases h

/-- Settles O2: the placed word is in flight and the engine's turn is next. -/
theorem fetchedWordRunsNext : Obligations.FetchedWordRunsNext := by
  intro s nbits w i h
  exact (step_engine_busy rfl rfl).trans (runCommand_decoded (decodeWord_tableWord h))

/-! ## Reset -/

/-- Settles O9: the reset state of the instance, by `applyReset_eq_resetOf`. -/
theorem resetInputClearsInstance : Obligations.ResetInputClearsInstance := by
  intro s rest hq
  obtain ⟨mem, d, e⟩ := applyReset_eq_resetOf { s with inputs := rest }
  exact ⟨_, step_reset hq, by rw [e]; rfl⟩

theorem applyReset_mem (s : State) :
    (applyReset s).mem = if frameInFlight s then abandonOutput s else s.mem := by
  rw [applyReset, apply_ite State.mem]
  rfl

/-- An abandoned command leaves the bytes outside its output range alone (U8). -/
theorem abandonOutput_read_outside (s : State) {a : Nat}
    (h : a < s.snap.ops.outAddr.toNat ∨ s.snap.ops.outAddr.toNat + s.snap.ops.outLen.toNat ≤ a) :
    (abandonOutput s).read a = s.mem.read a :=
  read_memWrite_outside _ _ _ (by rw [abandonedBytes_length]; omega)

/-- Settles O10: memory changes only by `abandonOutput`. -/
theorem resetKeepsOtherMemory : Obligations.ResetKeepsOtherMemory := by
  intro s rest hq
  refine ⟨_, step_reset hq, fun hidle => ?_, fun a ha => ?_⟩
  · exact (applyReset_mem _).trans (if_neg (Bool.eq_false_iff.mp hidle))
  · rw [applyReset_mem]
    split
    · exact abandonOutput_read_outside { s with inputs := rest } ha
    · rfl

section

variable (p : Params) (mem : Memory) (inputs : List Input) (d : Nat) (v : Word)

theorem telemetryInv_resetOf : TelemetryInv (State.resetOf p mem inputs d v) :=
  ⟨(by decide : StatsWithin 299 Stats.zero), .inl rfl⟩

theorem statusInv_resetOf : StatusInv (State.resetOf p mem inputs d v) :=
  ⟨nofun, by simp [State.resetOf, Status.reset], rfl, fun _ => rfl⟩

theorem provisioningInv_resetOf : ProvisioningInv (State.resetOf p mem inputs d v) :=
  ⟨fun _ => rfl, fun _ => rfl, fun _ => rfl, fun _ => rfl, fun _ => rfl⟩

end

/-- Settles O11: each invariant at the reset values of the fields that it speaks of. -/
theorem invariantsHoldAtReset : Obligations.InvariantsHoldAtReset := by
  refine ⟨?_, by decide, telemetryInv_resetOf .., statusInv_resetOf .., fun _ => ⟨rfl, rfl⟩,
    provisioningInv_resetOf ..⟩
  rintro p mem inputs d v s hmem rfl
  exact ⟨hmem, telemetryInv_resetOf .., statusInv_resetOf .., fun _ => ⟨rfl, rfl⟩, provisioningInv_resetOf ..⟩

/-! ## Buffer memory stays canonical -/

theorem abandonOutput_wf {s : State} (h : s.mem.wf) : (abandonOutput s).wf := by
  have hlt : s.snap.ops.outAddr.toNat < Config.addrSpace := s.snap.ops.outAddr.isLt
  exact wf_memWrite h (by rw [abandonedBytes_length]; omega)

/-- A command leaves buffer memory alone, or is a ready frame command that writes its whole output range, which
lies in buffer memory (R28, R69, R70). -/
theorem ExecEnd.mem_cases {i : Instr} {s t : State} (h : ExecEnd i s t) :
    t.mem = s.mem ∨
    ((∃ md, (i = .encrypt md ∧ EncReady s) ∨ (i = .decrypt md ∧ DecReady s)) ∧ RangesFit s.snap.ops ∧
      ∃ out : Bytes, out.length = s.snap.ops.outLen.toNat ∧
        t.mem = memWrite s.mem s.snap.ops.outAddr.toNat out) := by
  cases h with
  | plain | setter | fatal => exact .inl rfl
  | encrypted md hi h =>
    have ⟨_, _, hlen, hfit, _⟩ := h
    exact .inr ⟨⟨md, .inl ⟨hi, h⟩⟩, hfit, _, by simp [hlen], encryptFrame_mem md s⟩
  | decrypted md hi h =>
    have ⟨_, _, _, hfit, _⟩ := h
    obtain ⟨out, code, cause, r, e, hlen, -⟩ := decryptFrame_shape h
    exact .inr ⟨⟨md, .inr ⟨hi, h⟩⟩, hfit, out, hlen, by rw [e]; rfl⟩

theorem ExecEnd.memoryInv {i : Instr} {s t : State} (h : ExecEnd i s t) (hs : MemoryInv s) :
    MemoryInv t := by
  rcases h.mem_cases with e | ⟨-, hfit, out, hlen, e⟩
  · rwa [MemoryInv, e]
  · rw [MemoryInv, e]
    exact wf_memWrite hs (hlen ▸ hfit.2)

theorem WriteEnd.mem_eq {r : Reg} {v : Word} {s t : State} (h : WriteEnd r v s t) : t.mem = s.mem := by
  cases h <;> rfl

/-- Settles O12: a command writes inside buffer memory, a host write stores one byte, and a reset writes an
abandoned output no further than buffer memory reaches. -/
theorem stepKeepsMemoryCanonical : Obligations.StepKeepsMemoryCanonical := by
  intro s t hs hstep
  cases step_end hstep with
  | idle | illegal | regRead | bufRead => exact hs
  | command q _ _ i _ t h => exact h.memoryInv hs
  | regWrite q k v _ _ t h => exact by rwa [MemoryInv, h.mem_eq]
  | bufWrite q a v => exact Memory.wf_write hs a.isLt v
  | reset q =>
    show Memory.wf (applyReset _).mem
    rw [applyReset_mem]
    split
    · exact abandonOutput_wf hs
    · exact hs

/-! ## The bytes that a command can change -/

/-- Settles O19: a command that is no ready frame command leaves memory alone by `ExecEnd.mem_cases`; a ready
one writes its output. -/
theorem bufferBytesTouched : Obligations.BufferBytesTouched := by
  intro i s t hexec
  have hend := execEnd_of_exec hexec
  have hsame (hnot : ∀ md, ¬ ((i = .encrypt md ∧ EncReady s) ∨ (i = .decrypt md ∧ DecReady s))) :
      SameMemory s t := by
    rcases hend.mem_cases with e | ⟨⟨md, h⟩, -⟩
    · exact fun a => by rw [e]
    · exact absurd h (hnot md)
  have houtside {n : Nat} (hn : s.snap.ops.outLen.toNat = n) :
      SameMemoryOutside s t s.snap.ops.outAddr.toNat n := by
    rcases hend.mem_cases with e | ⟨-, -, out, hlen, e⟩
    · exact fun a _ => by rw [e]
    · exact sameMemoryOutside_memWrite (hlen.trans hn) e
  refine ⟨fun hi => hsame ?_, fun md hi h => houtside h.2.2.1, fun md hi h => hsame ?_,
    fun md hi h => houtside ?_, fun md hi h => hsame ?_⟩
  · rintro md (⟨rfl, -⟩ | ⟨rfl, -⟩) <;> cases hi
  · simp [hi, h]
  · have ⟨_, _, hlen, _⟩ := h
    omega
  · simp [hi, h]

end Sys2Proof.Machine
end

section
/-! SUPPORT. What every step keeps: the configuration changes by its commands only, and the status stays legal. -/

namespace Sys2Proof.Machine

/-! ## The configuration -/

/-- A command leaves the configuration alone, or is a setter that runs. -/
theorem ExecEnd.cfg_cases {i : Instr} {s t : State} (h : ExecEnd i s t) :
    t.cfg = s.cfg ∨ (setterRuns i s = true ∧ t.cfg = newSettings i s) := by
  cases h with
  | plain | fatal => exact .inl rfl
  | setter h => exact .inr ⟨h, rfl⟩
  | encrypted md => exact .inl (encryptFrame_cfg md s)
  | decrypted md hi h => exact .inl (decryptFrame_frame h).1

theorem WriteEnd.cfg_eq {r : Reg} {v : Word} {s t : State} (h : WriteEnd r v s t) : t.cfg = s.cfg := by
  cases h <;> rfl

/-- A step leaves the configuration alone, or is the turn of a setter that runs, or the reset (R18, R101). -/
theorem StepEnd.cfg_cases {s t : State} (h : StepEnd s t) :
    t.cfg = s.cfg ∨
    (∃ i, s.status.busy = true ∧ decodeWord s.snap.cmd = .ok i ∧ setterRuns i s = true ∧
      t.cfg = newSettings i s) ∨
    (s.inputs.head? = some .reset ∧ t.cfg = Settings.reset) := by
  cases h with
  | idle | illegal | regRead | bufWrite | bufRead => exact .inl rfl
  | command q _ hb i hd t h =>
    rcases h.cfg_cases with e | ⟨hruns, e⟩
    · exact .inl e
    · exact .inr (.inl ⟨i, hb, hd, hruns, e⟩)
  | regWrite q k v _ _ t h => exact .inl h.cfg_eq
  | reset q hq =>
    obtain ⟨mem, d, e⟩ := applyReset_eq_resetOf { s with inputs := q }
    exact .inr (.inr ⟨congrArg List.head? hq, congrArg State.cfg e⟩)

/-- The provisioning invariant of a configuration on a build with or without the test hooks. -/
abbrev SettingsProvisioned (testHooks : Bool) (c : Settings) : Prop :=
  (c.keyV = false → c.key = 0) ∧ (c.seedV = false → c.seed = 0) ∧ (c.markerV = false → c.marker = 0) ∧
    (c.xkeyV = false → c.xkey = 0) ∧ (testHooks = false → c.forceFail = false)

/-- A setter that runs sets the validity bit of the material it writes; `ADV_SEED` runs with a seed and
`SET_FORCE_FAIL` with the test hooks only (R52, R55). -/
theorem provisioned_newSettings {i : Instr} {s : State} (hs : ProvisioningInv s)
    (hruns : setterRuns i s = true) : SettingsProvisioned s.params.testHooks (newSettings i s) := by
  obtain ⟨hkey, hseed, hmarker, hxkey, hforce⟩ := hs
  cases i with
  | setKey => exact ⟨nofun, hseed, hmarker, hxkey, hforce⟩
  | setSeed => exact ⟨hkey, nofun, hmarker, hxkey, hforce⟩
  | setMarker => exact ⟨hkey, hseed, nofun, hxkey, hforce⟩
  | setXkey => exact ⟨hkey, hseed, hmarker, nofun, hforce⟩
  | advSeed => exact ⟨hkey, fun h => (nomatch h.symm.trans hruns), hmarker, hxkey, hforce⟩
  | setForceFail => exact ⟨hkey, hseed, hmarker, hxkey, fun h => (nomatch h.symm.trans hruns)⟩
  | setMode | setPolicy | encrypt | decrypt | encMaxout | decMaxout =>
    exact ⟨hkey, hseed, hmarker, hxkey, hforce⟩

/-- Settles O16: by the three things that a step can do to the configuration. -/
theorem stepKeepsProvisioning : Obligations.StepKeepsProvisioning := by
  intro s t hs hstep
  have hend := step_end hstep
  show SettingsProvisioned t.params.testHooks t.cfg
  rw [hend.params_eq]
  rcases hend.cfg_cases with e | ⟨i, -, -, hruns, e⟩ | ⟨-, e⟩
  · exact e ▸ hs
  · exact e ▸ provisioned_newSettings hs hruns
  · exact e ▸ provisioningInv_resetOf s.params [] [] 0 0

/-- A setter keeps every validity bit that is set (R18). -/
theorem newSettings_valid (i : Instr) (s : State) :
    (s.cfg.keyV = true → (newSettings i s).keyV = true) ∧
      (s.cfg.seedV = true → (newSettings i s).seedV = true) ∧
      (s.cfg.markerV = true → (newSettings i s).markerV = true) ∧
      (s.cfg.xkeyV = true → (newSettings i s).xkeyV = true) := by
  cases i <;> simp [newSettings]

/-- Each of `MODE`, `POLICY`, `FORCE_FAIL` and `MARKER` is written by its own setter only (R50 to R53). -/
theorem newSettings_writer (i : Instr) (s : State) :
    ((newSettings i s).mode ≠ s.cfg.mode → i = .setMode (newSettings i s).mode) ∧
      ((newSettings i s).policy ≠ s.cfg.policy → i = .setPolicy (newSettings i s).policy) ∧
      ((newSettings i s).forceFail ≠ s.cfg.forceFail → i = .setForceFail (newSettings i s).forceFail) ∧
      ((newSettings i s).marker ≠ s.cfg.marker → i = .setMarker (newSettings i s).marker) := by
  cases i <;> simp [newSettings]

/-- Settles O17: a step that changes the configuration is the turn of a setter or a reset. -/
theorem configChangesOnlyByCommands : Obligations.ConfigChangesOnlyByCommands := by
  intro s t hstep
  have hend := step_end hstep
  refine ⟨hend.params_eq, fun hr => ?_⟩
  rcases hend.cfg_cases with e | ⟨i, hbusy, hd, -, e⟩ | ⟨hhead, -⟩
  · simp [e]
  · obtain ⟨hkey, hseed, hmarker, hxkey⟩ := newSettings_valid i s
    obtain ⟨wmode, wpolicy, wforce, wmarker⟩ := newSettings_writer i s
    rw [e, hd]
    exact ⟨hkey, hseed, hmarker, hxkey, fun h => ⟨hbusy, congrArg _ (wmode h)⟩,
      fun h => ⟨hbusy, congrArg _ (wpolicy h)⟩, fun h => ⟨hbusy, congrArg _ (wforce h)⟩,
      fun h => ⟨hbusy, congrArg _ (wmarker h)⟩⟩
  · exact absurd hhead hr

/-! ## The status -/

/-- The codes and causes of the ends that change nothing but the status stand together on the instance's role,
and `RESULT` is 0 with every code but `OK` (R85). -/
theorem PlainEnd.status_legal {i : Instr} {s : State} {code : Code} {cause : Cause} {r : Word}
    (h : PlainEnd i s code cause r) :
    codeCauseLegal s.params.role code cause = true ∧ (code ≠ .ok → r = 0) := by
  cases h with
  | encForced md hi hr h => exact ⟨by rw [hr]; rfl, fun _ => rfl⟩
  | decForced md hi hr h => exact ⟨by rw [hr]; rfl, fun _ => rfl⟩
  | illegal | frameNotProvisioned | seedNotProvisioned | encSizeError | decSizeError =>
    exact ⟨rfl, fun _ => rfl⟩
  | encSize | decSize => exact ⟨rfl, fun h => absurd rfl h⟩

/-- A completion leaves a legal status where its code, cause and result are legal (R86). -/
theorem statusInv_of_completed {s t : State} (hs : StatusInv s) (hparams : t.params = s.params)
    (hstatus : t.status = { s.status with busy := false, code := t.status.code, cause := t.status.cause })
    (hlegal : codeCauseLegal s.params.role t.status.code t.status.cause = true)
    (hresult : t.status.code ≠ .ok → t.result = 0) : StatusInv t := by
  obtain ⟨-, hfatal, -, -⟩ := hs
  refine ⟨?_, ?_, by rwa [hparams], hresult⟩
  · rw [hstatus]
    simp
  · rw [hstatus]
    exact hfatal

theorem ExecEnd.statusInv {i : Instr} {s t : State} (h : ExecEnd i s t) (hs : StatusInv s) :
    StatusInv t := by
  cases h with
  | plain code cause r h =>
    obtain ⟨hlegal, hresult⟩ := h.status_legal
    exact statusInv_of_completed hs rfl rfl hlegal hresult
  | setter => exact statusInv_of_completed hs rfl rfl rfl fun _ => rfl
  | fatal c hc =>
    obtain ⟨-, -, hlegal, hresult⟩ := hs
    exact ⟨by simp, by simp [hc], hlegal, hresult⟩
  | encrypted md hi h =>
    exact statusInv_of_completed hs (encryptFrame_params md s) (by simp) (by simp [codeCauseLegal]) (by simp)
  | decrypted md hi h =>
    have ⟨hrole, _⟩ := h
    obtain ⟨out, code, cause, r, e, -, hcode⟩ := decryptFrame_shape h
    rw [e]
    rcases hcode with ⟨rfl, rfl, -⟩ | ⟨rfl, rfl, rfl, -⟩
    · exact statusInv_of_completed hs rfl rfl rfl fun h => absurd rfl h
    · exact statusInv_of_completed hs rfl rfl (by rw [hrole]; rfl) fun _ => rfl

/-- A host write accepts a command in the idle state only, and leaves the rest of the status alone (R14). -/
theorem WriteEnd.statusInv {r : Reg} {v : Word} {s t : State} (h : WriteEnd r v s t) (hs : StatusInv s) :
    StatusInv t := by
  cases h with
  | accepted _ _ hf =>
    obtain ⟨-, hfatal, hlegal, hresult⟩ := hs
    exact ⟨by simp [hf], hfatal, hlegal, hresult⟩
  | dropped | enabled | cleared | staged => exact hs

/-- Settles O14: by what a command, a host write and a reset do to the status. -/
theorem stepKeepsStatusLegal : Obligations.StepKeepsStatusLegal := by
  intro s t hs hstep
  cases step_end hstep with
  | idle | regRead | bufWrite | bufRead => exact hs
  | illegal q => exact statusInv_of_completed (s := { s with inputs := q }) hs rfl rfl rfl fun _ => rfl
  | command q _ _ i _ t h => exact h.statusInv hs
  | regWrite q k v _ _ t h => exact h.statusInv hs
  | reset q =>
    obtain ⟨mem, d, e⟩ := applyReset_eq_resetOf { s with inputs := q }
    exact e ▸ statusInv_resetOf ..

end Sys2Proof.Machine
end

section
/-! SUPPORT. The telemetry bounds, and the period of 300 video frames. -/

namespace Sys2Proof.Machine

/-! ## One update of the accumulator -/

/-- Fewer than 300 counted frames leave room for one more in every field: no sum of the update wraps (R79). -/
theorem addFrame_toNat {n : Nat} (hn : n ≤ 299) {u : Stats} (h : StatsWithin n u) (kf : Bool) (e : Word) :
    (u.addFrame kf e).frames.toNat = u.frames.toNat + 1 ∧
      (u.addFrame kf e).totalUs.toNat = u.totalUs.toNat + e.toNat ∧
      (u.addFrame kf e).kframes.toNat = u.kframes.toNat + kf.toNat ∧
      (u.addFrame kf e).kfUs.toNat = u.kfUs.toNat + kf.toNat * e.toNat ∧
      (u.addFrame kf e).maxUs.toNat = max u.maxUs.toNat (kf.toNat * e.toNat) := by
  obtain ⟨hframes, hkframes, htotal, hkfUs, -, -⟩ := h
  have he : e.toNat < 2 ^ 32 := e.isLt
  have hwide : (e.setWidth 64).toNat = e.toNat := BitVec.toNat_setWidth_of_le (by decide)
  have hsum : (u.totalUs + e.setWidth 64).toNat = u.totalUs.toNat + e.toNat := by
    rw [BitVec.toNat_add, hwide, Nat.mod_eq_of_lt (by omega)]
  have hinc {x : Word} (hx : x.toNat ≤ n) : (x + 1).toNat = x.toNat + 1 := by bv_omega
  cases kf with
  | false => exact ⟨hinc hframes, hsum, rfl, by simp [Stats.addFrame], by simp [Stats.addFrame]⟩
  | true =>
    have hkfsum : (u.kfUs + e.setWidth 64).toNat = u.kfUs.toNat + e.toNat := by
      rw [BitVec.toNat_add, hwide, Nat.mod_eq_of_lt (by omega)]
    exact ⟨hinc hframes, hsum, hinc (hkframes.trans hframes), by simpa [Stats.addFrame] using hkfsum,
      by simpa [Stats.addFrame] using maxWord_toNat u.maxUs e⟩

/-- One more frame keeps the bounds of the accumulator, with room for one frame more (R79). -/
theorem statsWithin_addFrame {n : Nat} (hn : n ≤ 299) {u : Stats} (h : StatsWithin n u) (kf : Bool) (e : Word) :
    StatsWithin (n + 1) (u.addFrame kf e) := by
  obtain ⟨eframes, etotal, ekframes, ekfUs, emax⟩ := addFrame_toNat hn h kf e
  obtain ⟨hframes, hkframes, htotal, hkfUs, hmax, hprod⟩ := h
  have he : e.toNat < 2 ^ 32 := e.isLt
  rw [StatsWithin, eframes, etotal, ekframes, ekfUs, emax]
  cases kf with
  | false =>
    simp only [Bool.toNat_false, Nat.zero_mul, Nat.add_zero, Nat.max_zero]
    omega
  | true =>
    have hkf : u.kfUs.toNat + e.toNat ≤ (u.kframes.toNat + 1) * max u.maxUs.toNat e.toNat :=
      calc u.kfUs.toNat + e.toNat
          ≤ u.kframes.toNat * max u.maxUs.toNat e.toNat + max u.maxUs.toNat e.toNat :=
            Nat.add_le_add (hprod.trans (Nat.mul_le_mul_left _ (Nat.le_max_left ..))) (Nat.le_max_right ..)
        _ = (u.kframes.toNat + 1) * max u.maxUs.toNat e.toNat := (Nat.succ_mul ..).symm
    simp only [Bool.toNat_true, Nat.one_mul]
    exact ⟨by omega, by omega, by omega, by omega, by omega, hkf⟩

/-! ## What a step does to the telemetry -/

/-- A command leaves the telemetry alone, counts a video frame, or counts the 300th and emits the summary
(R81, R82). -/
theorem ExecEnd.telemetry_cases {i : Instr} {s t : State} (h : ExecEnd i s t) :
    (t.stats = s.stats ∧ t.sum = s.sum) ∨
    ((countedStats s).frames.toNat ≠ 300 ∧ t.stats = countedStats s ∧ t.sum = s.sum) ∨
    ((countedStats s).frames.toNat = 300 ∧ t.stats = Stats.zero ∧
      t.sum = Summary.latch s.cfg (countedStats s) s.sum) := by
  by_cases hi : i = .encrypt .video ∧ EncReady s
  · obtain ⟨rfl, hready⟩ := hi
    cases h with
    | plain | fatal => exact .inl ⟨rfl, rfl⟩
    | setter h => cases h
    | decrypted md hi => cases hi
    | encrypted md hi =>
      cases hi
      by_cases hdue : (countedStats s).frames.toNat = 300
      · obtain ⟨hstats, hsum, -⟩ := encryptFrame_telemetry_due hdue
        exact .inr (.inr ⟨hdue, hstats, hsum⟩)
      · obtain ⟨hstats, hsum, -⟩ := encryptFrame_telemetry_counting hdue
        exact .inr (.inl ⟨hdue, hstats, hsum⟩)
  · obtain ⟨hstats, hsum, -⟩ := h.sameTelemetry hi
    exact .inl ⟨hstats, hsum⟩

theorem ExecEnd.telemetryInv {i : Instr} {s t : State} (h : ExecEnd i s t) (hs : TelemetryInv s) :
    TelemetryInv t := by
  obtain ⟨hstats, hsum⟩ := hs
  have hcounted : StatsWithin 300 (countedStats s) := statsWithin_addFrame (Nat.le_refl 299) hstats _ _
  rcases h.telemetry_cases with ⟨e, e'⟩ | ⟨hne, e, e'⟩ | ⟨hdue, e, e'⟩
  · rw [TelemetryInv, e, e']
    exact ⟨hstats, hsum⟩
  · obtain ⟨hframes, hrest⟩ := hcounted
    rw [TelemetryInv, e, e']
    exact ⟨⟨by omega, hrest⟩, hsum⟩
  · rw [TelemetryInv, e, e']
    exact ⟨by decide, .inr ⟨hdue, hcounted⟩⟩

/-- Settles O13: the step by `ExecEnd.telemetryInv`, the update by `addFrame_toNat`. -/
theorem stepKeepsTelemetryBounds : Obligations.StepKeepsTelemetryBounds := by
  refine ⟨fun s t hs hstep => ?_, fun u kf e h => ?_⟩
  · cases step_end hstep with
    | idle | illegal | regRead | bufWrite | bufRead => exact hs
    | command q _ _ i _ t h => exact h.telemetryInv hs
    | regWrite q k v _ _ t h =>
      obtain ⟨hstats, hsum, -⟩ := h.sameTelemetry
      rw [TelemetryInv, hstats, hsum]
      exact hs
    | reset q =>
      obtain ⟨mem, d, e⟩ := applyReset_eq_resetOf { s with inputs := q }
      exact e ▸ telemetryInv_resetOf ..
  · have hwithin := statsWithin_addFrame (Nat.le_refl 299) h kf e
    have ⟨hframes, _, htotal, hkfUs, _, _⟩ := hwithin
    have hbound := htotal.trans (Nat.mul_le_mul_right (2 ^ 32 - 1) hframes)
    exact ⟨hwithin, hbound, hkfUs.trans hbound, addFrame_toNat (Nat.le_refl 299) h kf e⟩

/-! ## The period of 300 video frames -/

/-- The sum of one more draw, at the end. -/
theorem elapsedSum_succ (d k : Nat) :
    elapsedSum d (k + 1) = elapsedSum d k + (Config.elapsedMicros (d + k)).toNat := by
  induction k generalizing d with
  | zero => simp [elapsedSum]
  | succ k ih =>
    rw [elapsedSum, ih (d + 1), elapsedSum, show d + 1 + k = d + (k + 1) by omega, Nat.add_assoc]

/-- One more run of `ENCRYPT`, at the end. -/
theorem encryptRepeatedly_succ {k : Nat} {s t u : State} (h : encryptRepeatedly k s = .next t)
    (hu : exec (.encrypt .video) t = .next u) : encryptRepeatedly (k + 1) s = .next u := by
  induction k generalizing s with
  | zero =>
    cases h
    rw [encryptRepeatedly, hu]
    rfl
  | succ k ih =>
    rw [encryptRepeatedly] at h ⊢
    cases hs : exec (.encrypt .video) s with
    | next s' =>
      rw [hs] at h
      exact ih h
    | fault r => simp [hs] at h
    | refused r => simp [hs] at h

/-- `ENCRYPT` writes no byte of its own payload, since its buffers do not overlap (R69). -/
theorem payload_encryptFrame {s : State} (h : EncReady s) (md : Media) :
    payload (encryptFrame md s) = payload s := by
  obtain ⟨-, -, hlen, -, hdisjoint, -⟩ := h
  simp only [BuffersOverlap, RangesOverlap, hlen] at hdisjoint
  rw [payload, encryptFrame_snap, encryptFrame_mem]
  refine memRead_congr fun j hj => read_memWrite_outside _ _ _ ?_
  rw [encFrame_length, payload_length]
  omega

/-- What `t` holds where it is `s` after `k` video frames, too few for a summary (R81): each counted the same
payload and its own draw. -/
structure Counted (k : Nat) (s t : State) : Prop where
  ready : EncReady t
  samePayload : payload t = payload s
  cfg : t.cfg = s.cfg
  sum : t.sum = s.sum
  draws : t.draws = s.draws + k
  irqPend : t.irqPend = if k = 0 then s.irqPend else s.irqPend ||| irqDone
  within : StatsWithin k t.stats
  frames : t.stats.frames.toNat = k
  kframes : t.stats.kframes.toNat = (isKeyFrame .video (payload s)).toNat * k
  totalUs : t.stats.totalUs.toNat = elapsedSum s.draws k
  kfUs : t.stats.kfUs.toNat = (isKeyFrame .video (payload s)).toNat * elapsedSum s.draws k

/-- No frame is counted yet. -/
theorem counted_zero {s : State} (hready : EncReady s) (hempty : s.stats = Stats.zero) : Counted 0 s s where
  ready := hready
  samePayload := rfl
  cfg := rfl
  sum := rfl
  draws := rfl
  irqPend := rfl
  within := by rw [hempty]; decide
  frames := by rw [hempty]; rfl
  kframes := by rw [hempty]; rfl
  totalUs := by rw [hempty]; rfl
  kfUs := by rw [hempty]; rfl

section

variable {k : Nat} (hk : k ≤ 299) {s t : State} (h : Counted k s t)
include hk h

/-- The accumulator with one more frame counted, before any summary (R81). -/
theorem Counted.oneMore : StatsWithin (k + 1) (countedStats t) ∧
    (countedStats t).frames.toNat = k + 1 ∧
    (countedStats t).kframes.toNat = (isKeyFrame .video (payload s)).toNat * (k + 1) ∧
    (countedStats t).totalUs.toNat = elapsedSum s.draws (k + 1) ∧
    (countedStats t).kfUs.toNat = (isKeyFrame .video (payload s)).toNat * elapsedSum s.draws (k + 1) := by
  have hexact := addFrame_toNat hk h.within (isKeyFrame .video (payload t)) (drawElapsed t)
  rw [h.frames, h.totalUs, h.kframes, h.kfUs, h.samePayload, drawElapsed, h.draws, ← elapsedSum_succ,
    ← Nat.mul_succ, ← Nat.mul_add, ← elapsedSum_succ] at hexact
  obtain ⟨hframes, htotal, hkframes, hkfUs, -⟩ := hexact
  rw [countedStats, h.samePayload, drawElapsed, h.draws]
  exact ⟨statsWithin_addFrame hk h.within _ _, hframes, hkframes, htotal, hkfUs⟩

/-- One more frame, before the 300th. -/
theorem Counted.succ (hnotDue : k + 1 ≠ 300) : Counted (k + 1) s (encryptFrame .video t) := by
  obtain ⟨hwithin, hframes, hkframes, htotal, hkfUs⟩ := h.oneMore hk
  obtain ⟨estats, esum, epend⟩ := encryptFrame_telemetry_counting (s := t) (hframes ▸ hnotDue)
  refine ⟨by simpa [EncReady] using h.ready, (payload_encryptFrame h.ready .video).trans h.samePayload,
    (encryptFrame_cfg .video t).trans h.cfg, esum.trans h.sum, ?_, ?_, ?_, ?_, ?_, ?_, ?_⟩
  · rw [encryptFrame_video_draws, h.draws, Nat.add_assoc]
  · rw [epend, h.irqPend, if_neg (Nat.succ_ne_zero k)]
    split
    · rfl
    · exact (BitVec.or_assoc ..).trans (congrArg _ BitVec.or_self)
  all_goals rwa [estats]

end

/-- From an empty accumulator, up to 299 video frames are counted and nothing is emitted (R81). -/
theorem encryptRepeatedly_counted {s : State} (hready : EncReady s) (hempty : s.stats = Stats.zero) {k : Nat}
    (hk : k ≤ 299) : ∃ t, encryptRepeatedly k s = .next t ∧ Counted k s t := by
  induction k with
  | zero => exact ⟨s, rfl, counted_zero hready hempty⟩
  | succ k ih =>
    obtain ⟨t, hrun, h⟩ := ih (by omega)
    exact ⟨_, encryptRepeatedly_succ hrun (exec_encrypt_ready .video h.ready), h.succ (by omega) (by omega)⟩

/-- `n` for a video key frame, 0 for any other. -/
theorem isKeyFrame_toNat_mul (s : State) (n : Nat) :
    (isKeyFrame .video (payload s)).toNat * n = if VideoKeyFrame s then n else 0 := by
  split
  · next hkf => rw [(isKeyFrame_payload s).mpr hkf, Bool.toNat_true, Nat.one_mul]
  · next hkf =>
    rw [Bool.eq_false_iff.mpr ((isKeyFrame_payload s).not.mpr hkf), Bool.toNat_false, Nat.zero_mul]

/-- Settles O59: 299 frames by `encryptRepeatedly_counted`, and the 300th latches their totals and its own. -/
theorem summaryAfter300VideoFrames : Obligations.SummaryAfter300VideoFrames := by
  intro s hready hempty
  obtain ⟨t, hrun, h⟩ := encryptRepeatedly_counted hready hempty (Nat.le_refl 299)
  refine ⟨⟨t, hrun, h.frames, h.sum, h.irqPend⟩,
    ⟨_, encryptRepeatedly_succ hrun (exec_encrypt_ready .video h.ready), ?_⟩⟩
  obtain ⟨-, hframes, hkframes, htotal, hkfUs⟩ := h.oneMore (Nat.le_refl 299)
  obtain ⟨estats, esum, epend⟩ := encryptFrame_telemetry_due hframes
  rw [isKeyFrame_toNat_mul] at hkframes hkfUs
  rw [estats, esum, epend, h.irqPend, encryptFrame_video_draws, h.draws, h.cfg, h.sum]
  exact ⟨rfl, hframes, hkframes, htotal, hkfUs, rfl, rfl, rfl, BitVec.or_assoc .., rfl⟩

end Sys2Proof.Machine
end

section
/-! SUPPORT. How commands end: with a code of R85 or in the fatal state, and alike beside other buffer memory and
other key material. -/

namespace Sys2Proof.Machine

/-! ## The ends of a command -/

theorem finishDecrypt_irqPend (out : Bytes) (code : Code) (cause : Cause) (r : Nat) (s : State) :
    (finishDecrypt out code cause r s).irqPend = s.irqPend ||| irqDone := rfl

/-- A frame past the checks of `ENCRYPT` sets `DONE`, with or without a summary (R86). -/
theorem encryptFrame_done (md : Media) (s : State) : (encryptFrame md s).irqPend.getLsbD 0 = true := by
  rcases encryptFrame_irq_cases md s with ⟨-, hpend⟩ | ⟨-, -, hpend⟩ <;> simp [hpend]

/-- A command sets `DONE` and leaves `FATAL` alone, or is a frame command that goes fatal (R86, R87). -/
theorem ExecEnd.done_or_fatal {i : Instr} {s t : State} (h : ExecEnd i s t) :
    (t.status.fatal = s.status.fatal ∧ t.irqPend.getLsbD 0 = true) ∨
      (i.isFrame = true ∧ t.status.fatal = true ∧ t.irqPend.getLsbD 2 = true) := by
  cases h with
  | plain | setter => exact .inl ⟨rfl, by simp⟩
  | fatal c hc hi => exact .inr ⟨hi, rfl, by simp⟩
  | encrypted md => exact .inl ⟨by simp, encryptFrame_done md s⟩
  | decrypted md hi h =>
    obtain ⟨out, code, cause, r, e, -⟩ := decryptFrame_shape h
    rw [e]
    exact .inl ⟨rfl, by simp [finishDecrypt_irqPend]⟩

/-- Settles O21: the command by its ends; the step by `step_engineTurn`, with an illegal word completed at once. -/
theorem everyCommandEnds : Obligations.EveryCommandEnds := by
  refine ⟨fun i s => ?_, fun s hbusy hq => ?_⟩
  · obtain ⟨t, hexec, hend⟩ := exec_end i s
    exact ⟨t, hexec, hend.busy_staging.1, hend.done_or_fatal⟩
  · have hstep : step s = runCommand s := by
      rw [step_engineTurn (.inr ⟨hq, rfl⟩), ← hq]
      exact engineTurn_busy hbusy
    rw [hstep]
    cases hd : decodeWord s.snap.cmd with
    | error e =>
      exact ⟨_, runCommand_rejected (by simp [hd]), rfl, .inl ⟨rfl, by simp⟩⟩
    | ok i =>
      obtain ⟨t, hexec, hend⟩ := exec_end i s
      exact ⟨t, (runCommand_decoded hd).trans hexec, hend.busy_staging.1,
        hend.done_or_fatal.imp_right fun ⟨hi, hfatal⟩ => ⟨⟨i, rfl, hi⟩, hfatal⟩⟩

/-- Settles O22: the code, cause and result of each end of a command. -/
theorem statusCodesByCommand : Obligations.StatusCodesByCommand := by
  intro i s t hexec
  have hlen : s.snap.ops.inLen.toNat < 2 ^ 32 := s.snap.ops.inLen.isLt
  have hofNat {n : Nat} (hn : n < 2 ^ 32) : (BitVec.ofNat 32 n).toNat = n :=
    (BitVec.toNat_ofNat ..).trans (Nat.mod_eq_of_lt hn)
  cases execEnd_of_exec hexec with
  | fatal c hc hi => exact .inl ⟨c, hc, hi, onlyGoesFatal_raiseFatal s c⟩
  | plain code cause r h =>
    refine .inr ⟨by simp, ?_⟩
    cases h with
    | illegal h => exact ⟨h, rfl, rfl⟩
    | encForced md hi _ h => exact ⟨⟨md, hi⟩, h, rfl, rfl⟩
    | decForced md hi _ h => exact ⟨⟨md, hi⟩, rfl, .inl ⟨h, rfl⟩⟩
    | frameNotProvisioned md hi h => exact ⟨rfl, rfl, .inl ⟨md, hi, h⟩⟩
    | seedNotProvisioned hi h => exact ⟨rfl, rfl, .inr ⟨hi, h⟩⟩
    | encSizeError md hi h => exact ⟨rfl, rfl, .inl ⟨md, hi, h⟩⟩
    | decSizeError md hi h => exact ⟨rfl, rfl, .inr ⟨md, hi, h⟩⟩
    | encSize md hi h =>
      subst hi
      exact ⟨rfl, hofNat (by omega)⟩
    | decSize md hi h =>
      subst hi
      exact ⟨rfl, hofNat (by omega)⟩
  | setter h =>
    refine .inr ⟨by simp, rfl, ?_⟩
    cases i with
    | encrypt | decrypt | encMaxout | decMaxout => cases h
    | setKey | setSeed | setMode | setPolicy | setForceFail | setMarker | setXkey | advSeed => rfl
  | encrypted md hi h =>
    subst hi
    obtain ⟨-, -, hout, -⟩ := h
    have hfits : s.snap.ops.inLen.toNat + 1 < 2 ^ 32 := hout ▸ s.snap.ops.outLen.isLt
    have ⟨_, _, _, _, _, hresult, _⟩ := encryptFrame_completedWith md hfits
    refine .inr ⟨encryptFrame_done md s, ?_⟩
    rw [encryptFrame_status]
    exact ⟨rfl, hresult⟩
  | decrypted md hi h =>
    subst hi
    obtain ⟨out, code, cause, r, e, -, hcode⟩ := decryptFrame_shape h
    rw [e]
    refine .inr ⟨by simp [finishDecrypt_irqPend], ?_⟩
    rcases hcode with ⟨rfl, rfl, rfl⟩ | ⟨rfl, rfl, rfl, htrailer, hpass⟩
    · exact ⟨rfl, hofNat (by omega)⟩
    · exact ⟨⟨md, rfl⟩, rfl, .inr ⟨h, rfl, htrailer, hpass⟩⟩

section

variable (md : Media) {s : State}

theorem exec_encrypt_forced (hrole : s.params.role = .enc) (hforce : s.cfg.forceFail = true) :
    exec (.encrypt md) s = .next (complete .forcedFailure .forced 0 s) :=
  (if_neg (not_not_intro hrole)).trans (if_pos hforce)

theorem exec_decrypt_forced (hrole : s.params.role = .dec) (hforce : s.cfg.forceFail = true) :
    exec (.decrypt md) s = .next (complete .failedToDecrypt .forced 0 s) :=
  (if_neg (not_not_intro hrole)).trans (if_pos hforce)

end

/-- Settles O33: on the other role by `exec_illegal`, on the own role by the forced failure. -/
theorem forcedFailureComesFirst : Obligations.ForcedFailureComesFirst := fun s md =>
  ⟨fun hrole => ⟨_, exec_illegal (by simp [Instr.legalOn, hrole]), onlyCompletes_complete s _ _ rfl⟩,
    fun hrole => ⟨_, exec_illegal (by simp [Instr.legalOn, hrole]), onlyCompletes_complete s _ _ rfl⟩,
    fun hrole hforce => ⟨_, exec_encrypt_forced md hrole hforce, onlyCompletes_complete s _ _ rfl⟩,
    fun hrole hforce => ⟨_, exec_decrypt_forced md hrole hforce, onlyCompletes_complete s _ _ rfl⟩⟩

/-! ## Beside other buffer memory and other key material -/

/-- How `t'`, the end of a command in `s.withHidden m k x`, compares with `t`, its end in `s`: they differ at most
in memory and key material, in memory alone where the key material was the same, and each holds its own memory
with nothing or with an output of the declared length written to it. -/
structure EndsAlike (s : State) (m : Memory) (k : Bytes16) (x : Byte) (t t' : State) : Prop where
  hidden : ∃ m' k' x', t' = t.withHidden m' k' x'
  cfg : k = s.cfg.key → x = s.cfg.xkey → t'.cfg = t.cfg
  mem : (t.mem = s.mem ∧ t'.mem = m) ∨
    ∃ out out' : Bytes, out.length = s.snap.ops.outLen.toNat ∧ out'.length = s.snap.ops.outLen.toNat ∧
      (k = s.cfg.key → x = s.cfg.xkey → out = out') ∧
      t.mem = memWrite s.mem s.snap.ops.outAddr.toNat out ∧
      t'.mem = memWrite m s.snap.ops.outAddr.toNat out'

section

variable {s : State} {m : Memory} {k : Bytes16} {x : Byte}

/-- An end that leaves memory and configuration alone is the same beside others. -/
theorem endsAlike_of_same {t : State} (hmem : t.mem = s.mem) (hcfg : t.cfg = s.cfg) :
    EndsAlike s m k x t (t.withHidden m k x) where
  hidden := ⟨m, k, x, rfl⟩
  cfg := by
    rintro rfl rfl
    rw [← hcfg]
  mem := .inl ⟨hmem, rfl⟩

theorem setterRuns_withHidden (i : Instr) : setterRuns i (s.withHidden m k x) = setterRuns i s := by
  cases i <;> rfl

theorem configCode_withHidden (i : Instr) : configCode i (s.withHidden m k x) = configCode i s := by
  rw [configCode, setterRuns_withHidden, configCode]

/-- Beside other key material a configuration command leaves the same configuration, but for that material. -/
theorem configAfter_withHidden (i : Instr) :
    ∃ k' x', configAfter i (s.withHidden m k x) = { configAfter i s with key := k', xkey := x' } := by
  unfold configAfter
  rw [setterRuns_withHidden]
  split
  · cases i <;> exact ⟨_, _, rfl⟩
  · exact ⟨_, _, rfl⟩

/-- No configuration command looks at buffer memory (R47). -/
theorem configAfter_withMem (i : Instr) : configAfter i { s with mem := m } = configAfter i s := by
  cases i <;> rfl

theorem exec_config_endsAlike {i : Instr} (hop : (encode i).toNat % 2 ^ 8 ≤ 0x08) :
    ∃ t t', exec i s = .next t ∧ exec i (s.withHidden m k x) = .next t' ∧ EndsAlike s m k x t t' := by
  refine ⟨_, _, exec_config hop s, exec_config hop (s.withHidden m k x), ?_, ?_, .inl ⟨rfl, rfl⟩⟩
  · obtain ⟨k', x', e⟩ := configAfter_withHidden (s := s) (m := m) (k := k) (x := x) i
    rw [e, configCode_withHidden]
    exact ⟨m, k', x', rfl⟩
  · rintro rfl rfl
    exact configAfter_withMem i

/-- Every command ends alike beside other buffer memory with the same input bytes, and other key material. -/
theorem exec_endsAlike (i : Instr) (hm : ∀ j < s.snap.ops.inLen.toNat,
      m.read (s.snap.ops.inAddr.toNat + j) = s.mem.read (s.snap.ops.inAddr.toNat + j)) :
    ∃ t t', exec i s = .next t ∧ exec i (s.withHidden m k x) = .next t' ∧ EndsAlike s m k x t t' := by
  have hpayload : payload (s.withHidden m k x) = payload s := payload_withHidden hm
  cases i with
  | setKey | setSeed | advSeed => exact exec_config_endsAlike (by decide)
  | setMode b | setPolicy b | setForceFail b => exact exec_config_endsAlike (by cases b <;> decide)
  | setMarker v | setXkey v => exact exec_config_endsAlike (by revert v; decide)
  | encMaxout md =>
    obtain ⟨code, cause, r, h⟩ := execEncMaxout_pure md s.params.role s.snap.ops.inLen
    exact ⟨_, _, h s rfl rfl, h (s.withHidden m k x) rfl rfl, endsAlike_of_same rfl rfl⟩
  | decMaxout md =>
    obtain ⟨code, cause, r, h⟩ := execDecMaxout_pure md s.params.role s.snap.ops.inLen
    exact ⟨_, _, h s rfl rfl, h (s.withHidden m k x) rfl rfl, endsAlike_of_same rfl rfl⟩
  | encrypt md =>
    rcases execEncrypt_withHidden md s m k x with ⟨hready, e, e'⟩ | ⟨t, e, e', hmem, hcfg⟩
    · have ⟨_, _, hlen, _⟩ := hready
      rw [encryptFrame_withHidden hpayload] at e'
      refine ⟨_, _, e, e', ⟨_, _, _, rfl⟩, ?_,
        .inr ⟨_, _, by simp [hlen], by simp [hlen], ?_, encryptFrame_mem md s, rfl⟩⟩
      · rintro rfl rfl
        simp
      · rintro rfl rfl
        rfl
    · exact ⟨t, _, e, e', endsAlike_of_same hmem hcfg⟩
  | decrypt md =>
    rcases execDecrypt_withHidden md s m k x with ⟨hready, e, e'⟩ | ⟨t, e, e', hmem, hcfg⟩
    · have ⟨_, _, hlen, _⟩ := hready
      have ⟨hsame, _, _⟩ := decryptFrame_frame hready
      obtain ⟨out, out', hlen', hout, heq, hmem, eframe⟩ := decryptFrame_withHidden hpayload
      rw [eframe] at e'
      refine ⟨_, _, e, e', ⟨_, _, _, rfl⟩, ?_,
        .inr ⟨out, out', by omega, by omega, heq, hmem, rfl⟩⟩
      rintro rfl rfl
      rw [← hsame]
    · exact ⟨t, _, e, e', endsAlike_of_same hmem hcfg⟩

end

/-- Settles O20: the key material is the same, so the two ends differ in memory alone, and there by the same
output written to each. -/
theorem onlyInputBytesMatter : Obligations.OnlyInputBytesMatter := by
  intro i s t m hexec hm
  obtain ⟨u, t', hu, hexec', halike⟩ := exec_endsAlike i (k := s.cfg.key) (x := s.cfg.xkey) hm
  cases hexec.symm.trans hu
  refine ⟨t', hexec', ?_, fun a => ?_⟩
  · have hcfg := halike.cfg rfl rfl
    obtain ⟨m', k', x', rfl⟩ := halike.hidden
    show { t with cfg := (t.withHidden m' k' x').cfg } = t
    rw [hcfg]
  · rcases halike.mem with ⟨e, e'⟩ | ⟨out, out', hlen, -, hout, e, e'⟩
    · exact .inr ⟨by rw [e], by rw [e']⟩
    · cases hout rfl rfl
      rw [e, e']
      by_cases ha : a < s.snap.ops.outAddr.toNat ∨ s.snap.ops.outAddr.toNat + out.length ≤ a
      · exact .inr ⟨read_memWrite_outside _ _ _ ha, read_memWrite_outside _ _ _ ha⟩
      · obtain ⟨j, rfl⟩ := Nat.exists_eq_add_of_le (show s.snap.ops.outAddr.toNat ≤ a by omega)
        have hj : j < out.length := by omega
        exact .inl (by rw [read_memWrite_inside _ _ _ hj, read_memWrite_inside _ _ _ hj])

/-- No register shows buffer memory or the key material (R23). -/
theorem readReg_withHidden (r : Reg) (s : State) (m : Memory) (k : Bytes16) (x : Byte) :
    readReg r (s.withHidden m k x) = readReg r s := by
  cases r <;> rfl

/-- Settles O57: the ends differ in key material and memory, which no register shows, and in memory inside the
output range only. -/
theorem keysAreNotReadable : Obligations.KeysAreNotReadable := by
  rintro s _ ⟨k, x, rfl⟩
  refine ⟨fun r => (readReg_withHidden r s s.mem k x).symm, rfl, fun i s' hexec => ?_⟩
  obtain ⟨u, t', hu, hexec', halike⟩ := exec_endsAlike (m := s.mem) (k := k) (x := x) i fun _ _ => rfl
  cases hexec.symm.trans hu
  refine ⟨t', hexec', fun r => ?_, ?_, fun a ha => ?_⟩
  · obtain ⟨m', k', x', rfl⟩ := halike.hidden
    exact (readReg_withHidden r s' m' k' x').symm
  · obtain ⟨m', k', x', rfl⟩ := halike.hidden
    exact ⟨k', x', rfl⟩
  · rcases halike.mem with ⟨e, e'⟩ | ⟨out, out', hlen, hlen', -, e, e'⟩
    · rw [e, e']
    · rw [e, e', read_memWrite_outside _ _ _ (by rwa [hlen']), read_memWrite_outside _ _ _ (by rwa [hlen])]

end Sys2Proof.Machine
end

section
/-! SUPPORT. The transforms applied twice, and a frame through `ENCRYPT` and the `DECRYPT` of a peer. -/

namespace Sys2Proof.Machine

/-! ## The transforms -/

/-- Settles O45: each transform by its own involution. -/
theorem transformsAreInvolutions : Obligations.TransformsAreInvolutions :=
  fun E K S X P => ⟨ctrXor_ctrXor E K S P, legacyXor_legacyXor X P⟩

/-- One keystream cancels out of the XOR of two byte strings that it covers (R109). -/
theorem xorBytes_xorBytes_right {a b c : Bytes} (ha : a.length ≤ c.length) (hb : b.length ≤ c.length) :
    xorBytes (xorBytes a c) (xorBytes b c) = xorBytes a b := by
  induction c generalizing a b with
  | nil =>
    cases List.length_eq_zero_iff.mp (Nat.le_zero.mp ha)
    rfl
  | cons z c ih =>
    cases a with
    | nil => rfl
    | cons x a =>
      cases b with
      | nil => rfl
      | cons y b =>
        have htail := ih (a := a) (b := b) (Nat.le_of_succ_le_succ ha) (Nat.le_of_succ_le_succ hb)
        simp only [xorBytes, List.zipWith_cons_cons] at htail ⊢
        rw [htail, BitVec.xor_assoc, BitVec.xor_comm y z, ← BitVec.xor_assoc z, BitVec.xor_self,
          BitVec.zero_xor]

/-- Settles O46: payloads of one length are covered by one keystream. -/
theorem keystreamReuse : Obligations.KeystreamReuse := by
  intro E K S P Q hlen
  rw [ctrXor, ctrXor, ← hlen]
  exact xorBytes_xorBytes_right (by simp) (by simp [hlen])

/-- Settles O47: both blocks by evaluation. -/
theorem aesPublishedBlocks : Obligations.AesPublishedBlocks := by
  unfold Obligations.AesPublishedBlocks
  decide +kernel

/-! ## Through an Encryptor and a Decryptor -/

/-- What a payload byte is combined with depends on the mode and its material only (R58, R60). -/
theorem padByte_congr {c d : Settings} (hkey : d.key = c.key) (hseed : d.seed = c.seed)
    (hxkey : d.xkey = c.xkey) (hmode : d.mode = c.mode) (j : Nat) : padByte d j = padByte c j := by
  simp only [padByte, hkey, hseed, hxkey, hmode]

/-- A frame that is passed through needs the policy `KEYFRAME_ONLY` (R68). -/
theorem policy_of_not_frameEncrypted {s : State} {md : Media} (h : ¬ FrameEncrypted s md) :
    s.cfg.policy = .keyframeOnly := by
  cases hp : s.cfg.policy with
  | always => exact absurd (.inl hp) h
  | keyframeOnly => rfl

/-- Settles O58: what `ENCRYPT` wrote by O37's lemmas is what `DECRYPT` reads, and O39 says what it makes of the
trailer: `MARKER` behind an encrypted frame, 0 behind a passed one. -/
theorem frameRoundTrip : Obligations.FrameRoundTrip := by
  intro a a' b md md' n ha hb hn hbn hkey hseed hxkey hmarker hmode hpolicy hexec hover
  cases (exec_encrypt_ready md ha).symm.trans hexec
  obtain ⟨b', hexec', -, -, -, -, htransformed, hcopied, hok, hfailed⟩ :=
    decryptFrameResult b md' n _ hb hbn.symm rfl
  rw [hover n (Nat.le_refl n), hmarker] at htransformed hcopied hok hfailed
  have hdecrypted (h) : ∀ j < n, b'.mem.read (b.snap.ops.outAddr.toNat + j) =
      (encryptFrame md a).mem.read (a.snap.ops.outAddr.toNat + j) ^^^ padByte a.cfg j := fun j hj => by
    rw [htransformed h j hj, hover j hj.le, padByte_congr hkey hseed hxkey hmode]
  have hpassed (h) : ∀ j < n, b'.mem.read (b.snap.ops.outAddr.toNat + j) =
      (encryptFrame md a).mem.read (a.snap.ops.outAddr.toNat + j) := fun j hj => by
    rw [hcopied h j hj, hover j hj.le]
  refine ⟨b', hexec', ?_⟩
  by_cases henc : FrameEncrypted a md
  · obtain ⟨hbytes, htrailer⟩ := hn ▸ encryptFrame_read_encrypted henc
    refine ⟨fun _ => ⟨hbytes, htrailer, hok (.inl htrailer), fun j hj => ?_⟩, (absurd henc ·),
      (absurd henc ·), (absurd henc ·), (absurd henc ·)⟩
    rw [hdecrypted (.inr (.inl htrailer)) j hj, hbytes j hj, xor_cancel_right]
  · obtain ⟨hbytes, htrailer⟩ := hn ▸ encryptFrame_read_passed henc
    have hpol : b.cfg.policy = .keyframeOnly := hpolicy.trans (policy_of_not_frameEncrypted henc)
    rw [htrailer] at hdecrypted hpassed hok hfailed
    refine ⟨(absurd · henc), fun _ => ⟨hbytes, htrailer⟩, fun _ hctr hne => ?_, fun _ hlegacy hne => ?_,
      fun _ hzero => ?_⟩
    · have hbctr := hmode.trans hctr
      exact ⟨hfailed ⟨hne.symm, .inl hbctr⟩, fun j hj => by rw [hdecrypted (.inl hbctr) j hj, hbytes j hj]⟩
    · have hblegacy := hmode.trans hlegacy
      exact ⟨hok (.inr ⟨hblegacy, hpol⟩),
        fun j hj => by rw [hpassed ⟨hblegacy, hne.symm, hpol⟩ j hj, hbytes j hj]⟩
    · exact ⟨hok (.inl hzero.symm),
        fun j hj => by rw [hdecrypted (.inr (.inl hzero.symm)) j hj, hbytes j hj]⟩

end Sys2Proof.Machine
end

section
/-! SUPPORT. The host interface: the numbers that the registers read, the registers that a write leaves alone, and
the accesses that the window and a frame command in flight refuse. -/

namespace Sys2Proof.Machine

/-! ## Register reads -/

/-- The number of a concatenation, its right part in the low bits. -/
theorem toNat_append_eq_add {v w : Nat} (x : BitVec v) (y : BitVec w) :
    (x ++ y).toNat = 2 ^ w * x.toNat + y.toNat := by
  rw [BitVec.toNat_append, Nat.shiftLeft_eq, Nat.mul_comm, ← Nat.two_pow_add_eq_or_of_lt y.isLt]

theorem Code.bits_toNat (c : Code) : c.bits.toNat = codeNumber c := by cases c <;> rfl
theorem Cause.bits_toNat (c : Cause) : c.bits.toNat = causeNumber c := by cases c <;> rfl
theorem FatalCause.bits_toNat (c : FatalCause) : c.bits.toNat = fatalCauseNumber c := by cases c <;> rfl

theorem statusWord_toNat (st : Status) : (statusWord st).toNat =
    st.busy.toNat + 2 * st.fatal.toNat + 2 ^ 4 * codeNumber st.code + 2 ^ 8 * causeNumber st.cause +
      2 ^ 12 * fatalCauseNumber st.fatalCause := by
  show BitVec.toNat (w := 16 + 4 + 4 + 4 + 2 + 1 + 1) (_ ++ _) = _
  simp only [toNat_append_eq_add, BitVec.toNat_ofBool, Code.bits_toNat, Cause.bits_toNat,
    FatalCause.bits_toNat, BitVec.toNat_ofNat]
  omega

theorem cfgWord_toNat (p : Params) (c : Settings) : (cfgWord p c).toNat =
    c.mode.bit.toNat + 2 * c.policy.bit.toNat + 2 ^ 2 * c.forceFail.toNat + 2 ^ 3 * p.role.bit.toNat +
      2 ^ 4 * p.testHooks.toNat + 2 ^ 8 * c.marker.toNat + 2 ^ 16 * c.keyV.toNat + 2 ^ 17 * c.seedV.toNat +
      2 ^ 18 * c.markerV.toNat + 2 ^ 19 * c.xkeyV.toNat := by
  show BitVec.toNat (w := 12 + 1 + 1 + 1 + 1 + 8 + 3 + 1 + 1 + 1 + 1 + 1) (_ ++ _) = _
  simp only [toNat_append_eq_add, BitVec.toNat_ofBool, BitVec.toNat_ofNat]
  omega

theorem sumCfgWord_toNat (m : Summary) :
    (sumCfgWord m).toNat = m.mode.bit.toNat + 2 * m.policy.bit.toNat := by
  show BitVec.toNat (w := 30 + 1 + 1) (_ ++ _) = _
  simp only [toNat_append_eq_add, BitVec.toNat_ofBool, BitVec.toNat_ofNat]
  omega

theorem seedWord_toNat (seed : Bytes16) (k : Nat) : (seedWord seed k).toNat =
    (blockByte seed (4 * k)).toNat + 2 ^ 8 * (blockByte seed (4 * k + 1)).toNat +
      2 ^ 16 * (blockByte seed (4 * k + 2)).toNat + 2 ^ 24 * (blockByte seed (4 * k + 3)).toNat := by
  show BitVec.toNat (w := 8 + 8 + 8 + 8) (_ ++ _) = _
  simp only [toNat_append_eq_add]
  omega

theorem lowWord_toNat (v : BitVec 64) : (lowWord v).toNat = v.toNat % 2 ^ 32 := by
  simp [lowWord]

theorem highWord_toNat (v : BitVec 64) : (highWord v).toNat = v.toNat / 2 ^ 32 := by
  have hv : v.toNat < 2 ^ 64 := v.isLt
  rw [highWord, BitVec.extractLsb'_toNat, Nat.shiftRight_eq_div_pow]
  omega

/-- The spec's values, by offset, are those of the registers of the window that are not reserved (R12). -/
theorem registerValues_eq (s : State) : registerValues s =
    (List.range 34).map fun k => (4 * k, (readReg (regAt (4 * k)) s).toNat) := by
  simp [registerValues, List.range_succ, regAt, readReg, statusWord_toNat, cfgWord_toNat, sumCfgWord_toNat,
    seedWord_toNat, lowWord_toNat, highWord_toNat, BitVec.toNat_setWidth_of_le, -BitVec.toNat_setWidth]

theorem regAt_reserved {k : Nat} (h34 : 34 ≤ k) (hk : k < 64) : regAt (4 * k) = .reserved := by
  interval_cases k <;> rfl

/-- No register shows what is still to happen. -/
theorem readReg_withInputs (r : Reg) (s : State) (q : List Input) :
    readReg r { s with inputs := q } = readReg r s := by
  cases r <;> rfl

/-- Settles O50: the registers in use by `registerValues_eq`, the others by `regAt_reserved`. -/
theorem registerReads : Obligations.RegisterReads := by
  intro s rest off hq
  refine ⟨fun v hv => ?_, fun hoff hlo hhi => ?_⟩
  · rw [registerValues_eq, List.mem_map] at hv
    obtain ⟨k, hk, e⟩ := hv
    cases e
    have hk64 : k < 64 := (List.mem_range.mp hk).trans (by decide)
    exact ⟨_, by rw [readReg_withInputs], step_regRead hk64 hq⟩
  · obtain ⟨k, rfl⟩ := Nat.dvd_of_mod_eq_zero hoff
    have hstep := step_regRead (k := k) (by omega) hq
    rwa [regAt_reserved (by omega) (by omega)] at hstep

/-! ## Register writes -/

/-- The read-only and the reserved registers: `STATUS`, `RESULT`, `CFG`, and all from `SEED0` on (R12). -/
theorem writeReg_readOnly {k : Nat} (h : k = 1 ∨ k = 2 ∨ k = 3 ∨ 14 ≤ k) (hk : k < 64) (v : Word) (s : State) :
    writeReg (regAt (4 * k)) v s = s := by
  rcases h with rfl | rfl | rfl | h14
  · rfl
  · rfl
  · rfl
  · by_cases h34 : 34 ≤ k
    · rw [regAt_reserved h34 hk]
      rfl
    · interval_cases k <;> rfl

/-- A staging register reads back what was written, and every other register reads as before (R20, R21). -/
theorem readReg_writeReg_staging {k : Nat} (h6 : 6 ≤ k) (h13 : k ≤ 13) (v : Word) (s : State) (r : Reg) :
    readReg r (writeReg (regAt (4 * k)) v s) = if r = regAt (4 * k) then v else readReg r s := by
  interval_cases k <;> cases r <;> rfl

/-- Settles O51: each offset is 4 times the number of its register, and the write is that register's. -/
theorem registerWrites : Obligations.RegisterWrites := by
  intro s rest off v hoff hq
  obtain ⟨k, rfl⟩ := Nat.dvd_of_mod_eq_zero hoff
  have hstep (hk : k < 64) := step_regWrite hk hq
  refine ⟨fun h => ?_, fun h => ?_, fun h => ?_, fun ⟨hlo, hhi⟩ => ?_⟩
  · exact (hstep (by omega)).trans (congrArg _ (writeReg_readOnly (by omega) (by omega) v _))
  · obtain rfl : k = 4 := by omega
    exact hstep (by decide)
  · obtain rfl : k = 5 := by omega
    exact hstep (by decide)
  · obtain ⟨g, hg⟩ := writeReg_staging (k := k) (by omega) (by omega) v { s with inputs := rest }
    have hread (r : Reg) : readReg r { s with staging := g } = if r = regAt (4 * k) then v else readReg r s :=
      calc readReg r { s with staging := g }
          = readReg r (writeReg (regAt (4 * k)) v { s with inputs := rest }) := by
            rw [hg]
            exact (readReg_withInputs r { s with staging := g } rest).symm
        _ = if r = regAt (4 * k) then v else readReg r s := by
            rw [readReg_writeReg_staging (by omega) (by omega), readReg_withInputs]
    exact ⟨g, (hstep (by omega)).trans (congrArg _ hg), (hread _).trans (if_pos rfl),
      fun r hr => (hread r).trans (if_neg hr)⟩

/-! ## Accesses that have no step -/

theorem touchesWindow_eq_true {base addr bytes : Nat} :
    touchesWindow base addr bytes = true ↔ addr < base + 256 ∧ base < addr + bytes := by
  rw [show (256 : Nat) = Config.windowBytes from rfl]
  simp only [touchesWindow, Bool.and_eq_true, decide_eq_true_eq]

/-- An access that touches the window acts on a register where it is an aligned 32-bit access, and is refused
otherwise (R13). -/
theorem registerAccess_touching {addr bytes : Nat} (act : Reg → State → State) {s : State}
    (htouch : ∃ a, s.params.regBase ≤ a ∧ a < s.params.regBase + 256 ∧ addr ≤ a ∧ a < addr + bytes) :
    ((bytes = 4 ∧ ∃ k, addr = s.params.regBase + 4 * k) → ∃ t, registerAccess addr bytes act s = .next t) ∧
    (¬ (bytes = 4 ∧ ∃ k, addr = s.params.regBase + 4 * k) →
      registerAccess addr bytes act s = .refused .unsupportedRegisterAccess) := by
  obtain ⟨a, hbase, hend, haddr, ha⟩ := htouch
  refine ⟨?_, fun hnot => ?_⟩
  · rintro ⟨rfl, k, rfl⟩
    exact ⟨_, registerAccess_supported (by omega) act s⟩
  · have hunsupported : ¬ supportedAccess s.params.regBase addr bytes = true := fun h => by
      obtain ⟨hbytes, hle, hmod, -⟩ := supportedAccess_eq_true.mp h
      exact hnot ⟨hbytes, (addr - s.params.regBase) / 4, by omega⟩
    rw [registerAccess, if_neg hunsupported, if_pos (touchesWindow_eq_true.mpr (by omega))]

/-- Settles O52: a write and a read are each a register access, by `registerAccess_touching`. -/
theorem unsupportedAccessRefused : Obligations.UnsupportedAccessRefused := by
  intro s rest addr bytes v hq htouch
  have ⟨act, hstep⟩ : ∃ act, step s = registerAccess addr bytes act { s with inputs := rest } := by
    rcases hq with hq | hq
    · exact ⟨fun r t => writeReg r v t, step_input hq⟩
    · exact ⟨fun r t => { t with lastRead := readReg r t }, step_input hq⟩
  rw [hstep]
  exact registerAccess_touching act (s := { s with inputs := rest }) htouch

/-! ## Host accesses to buffer memory -/

/-- A frame command that is legal on the instance is in flight (R39, R44). -/
theorem frameInFlight_iff (s : State) : frameInFlight s = true ↔ s.status.busy = true ∧
    ∃ i, decodeWord s.snap.cmd = .ok i ∧ i.isFrame = true ∧
      i.legalOn s.params.role s.params.testHooks = true := by
  rw [frameInFlight, Bool.and_eq_true, legalCommand]
  refine and_congr_right fun _ => ?_
  cases decodeWord s.snap.cmd with
  | error e => simp
  | ok i => cases hl : i.legalOn s.params.role s.params.testHooks <;> simp [hl]

theorem inRange_eq_true {base n a : Nat} : inRange base n a = true ↔ base ≤ a ∧ a < base + n := by
  simp [inRange]

theorem inInputRange_eq_true (s : State) (a : Nat) : inInputRange s a = true ↔
    s.snap.ops.inAddr.toNat ≤ a ∧ a < s.snap.ops.inAddr.toNat + s.snap.ops.inLen.toNat := inRange_eq_true

theorem inOutputRange_eq_true (s : State) (a : Nat) : inOutputRange s a = true ↔
    s.snap.ops.outAddr.toNat ≤ a ∧ a < s.snap.ops.outAddr.toNat + s.snap.ops.outLen.toNat := inRange_eq_true

/-- Settles O53: the guard of each access is the race of R39; without it the byte is written or read. -/
theorem hostBufferAccess : Obligations.HostBufferAccess := by
  intro s rest a v inFlight hinFlight
  rw [← frameInFlight_iff] at hinFlight
  simp only [hinFlight, ← inInputRange_eq_true, ← inOutputRange_eq_true, ← Bool.or_eq_true,
    ← Bool.and_eq_true]
  refine ⟨fun hq => ?_, fun hq => ?_⟩
  · rw [step_input hq]
    exact ⟨fun hrace => if_pos hrace, fun hclear => ⟨_, if_neg hclear, Memory.read_write_same ..,
      fun x hx => Memory.read_write_ne _ _ hx⟩⟩
  · rw [step_input hq]
    exact ⟨fun hrace => if_pos hrace, fun hclear => if_neg hclear⟩

end Sys2Proof.Machine
end
